-- ==== Sys2Proof/Word.lean ====
section
/-! DEFINITION. The words of the block: everything the spec treats as bits (00_scope.md section 4, R7).
Counters and indices are natural numbers, since no counter ever wraps (10_state.md R15). -/

namespace Sys2Proof

/-- One cell of `IN` or `OUT`, one source character, one packed byte (`BYTE_W` = 8). -/
abbrev Byte := BitVec 8

/-- A token: flag in bit 3, payload in bits 2:0 (`TOKEN_W` = 4). -/
abbrev Token := BitVec 4

/-- A payload, an index into one of the two tables (`PAYLOAD_W` = 3). -/
abbrev Code := BitVec 3

end Sys2Proof
end

