-- ==== Sys2Proof/Config.lean ====
section
/-! DEFINITION. The one free value of the model. The block's parameters (00_scope.md section 4) are in
Machine/Params.lean. -/

namespace Sys2Proof

/-- The bytes an `IN` cell holds that nothing has written since the last hardware reset: unspecified (10_state.md R32,
93_implementation_defined.md U9), so a FREE VALUE. `resets` counts the hardware resets, `before` is what `IN` held
before the last one (it is not cleared by reset, R152, so its old contents may or may not survive). A cell keeps its
value within a run (20_memory.md R36), hence no further argument (log 4). -/
opaque Config.unwrittenIn (resets : Nat) (before : List (Nat × BitVec 8)) (i : Nat) : BitVec 8

end Sys2Proof
end

