-- ==== Sys2Proof/Syntax.lean ====
section
/-! DEFINITION. The instructions: one constructor per row of spec/opcode_table.json, and the items they are cut from
(30_encoding.md R53). -/

namespace Sys2Proof

/-- The direction of a run, the values of `CTRL.MODE` (10_state.md R16, R17). -/
inductive Direction where
  | encode
  | decode
  deriving DecidableEq, Repr

/-- The formats an instruction is given in (30_encoding.md R53). `PBYTE` is the storage unit of two `TOK4` and no
instruction of its own. -/
inductive Format where
  | tok4
  | char8
  | eos
  | cmd8
  deriving DecidableEq, Repr

/-- One input item with its format: a token of the packed form, a character of the source form, the end-of-input
condition of a direction (no bits, R58), or the value of a host write to register `CMD` (R57). -/
inductive Item where
  | tok (t : Token)
  | char (c : Byte)
  | eos (dir : Direction)
  | cmd (v : Byte)
  deriving DecidableEq, Repr

/-- The format of an item. -/
def Item.format : Item → Format
  | .tok _ => .tok4
  | .char _ => .char8
  | .eos _ => .eos
  | .cmd _ => .cmd8

/-- The instructions, in the order of spec/opcode_table.json. Mnemonics are the spec's (30_encoding.md R72). -/
inductive Instr where
  /-- `D_CMD0`: token 0x0, a command (R89). -/
  | dCmd0
  /-- `D_CMD1`: token 0x1, a command (R90). -/
  | dCmd1
  /-- `D_CMD2`: token 0x2, a command (R91). -/
  | dCmd2
  /-- `D_CMD3`: token 0x3, a command (R92). -/
  | dCmd3
  /-- `D_CMD4`: token 0x4, a command (R93). -/
  | dCmd4
  /-- `D_CMD5`: token 0x5, a command (R94). -/
  | dCmd5
  /-- `D_CMD6`: token 0x6, a command (R95). -/
  | dCmd6
  /-- `D_CMD7`: token 0x7, a command (R96). -/
  | dCmd7
  /-- `D_PAD`: token 0x8, the alignment pad (R97). -/
  | dPad
  /-- `D_TAB`: token 0x9, the tab mark (R98). -/
  | dTab
  /-- `D_NL`: token 0xA, the newline mark (R99). -/
  | dNl
  /-- `D_NOP3`: token 0xB, a no-op token (R100). -/
  | dNop3
  /-- `D_NOP4`: token 0xC, a no-op token (R101). -/
  | dNop4
  /-- `D_NOP5`: token 0xD, a no-op token (R102). -/
  | dNop5
  /-- `D_NOP6`: token 0xE, a no-op token (R103). -/
  | dNop6
  /-- `D_NOP7`: token 0xF, a no-op token (R104). -/
  | dNop7
  /-- `D_EOS`: end of input of a decode run (R105). -/
  | dEos
  /-- `E_CMD0`: the character `>` (R113). -/
  | eCmd0
  /-- `E_CMD1`: the character `<` (R114). -/
  | eCmd1
  /-- `E_CMD2`: the character `+` (R115). -/
  | eCmd2
  /-- `E_CMD3`: the character `-` (R116). -/
  | eCmd3
  /-- `E_CMD4`: the character `.` (R117). -/
  | eCmd4
  /-- `E_CMD5`: the character `,` (R118). -/
  | eCmd5
  /-- `E_CMD6`: the character `[` (R119). -/
  | eCmd6
  /-- `E_CMD7`: the character `]` (R120). -/
  | eCmd7
  /-- `E_TAB`: the character TAB (R121). -/
  | eTab
  /-- `E_NL`: the character NL (R122). -/
  | eNl
  /-- `E_CR`: the character CR (R123). -/
  | eCr
  /-- `E_SKIP`: a foreign byte `c`, any of the 245 values no other `CHAR8` row matches (R124). -/
  | eSkip (c : Byte)
  /-- `E_EOS`: end of input of an encode run, the alignment padding generator (R127). -/
  | eEos
  /-- `START`: a host write to `CMD` with bit 0 = 1; `ignored` is bits 7:1 of the value (R144, R57). -/
  | start (ignored : BitVec 7)
  deriving DecidableEq, Repr

/-- The format of an instruction's row of the opcode table (30_encoding.md R53, R62, R63). -/
def Instr.format : Instr → Format
  | .dCmd0 => .tok4
  | .dCmd1 => .tok4
  | .dCmd2 => .tok4
  | .dCmd3 => .tok4
  | .dCmd4 => .tok4
  | .dCmd5 => .tok4
  | .dCmd6 => .tok4
  | .dCmd7 => .tok4
  | .dPad => .tok4
  | .dTab => .tok4
  | .dNl => .tok4
  | .dNop3 => .tok4
  | .dNop4 => .tok4
  | .dNop5 => .tok4
  | .dNop6 => .tok4
  | .dNop7 => .tok4
  | .dEos => .eos
  | .eCmd0 => .char8
  | .eCmd1 => .char8
  | .eCmd2 => .char8
  | .eCmd3 => .char8
  | .eCmd4 => .char8
  | .eCmd5 => .char8
  | .eCmd6 => .char8
  | .eCmd7 => .char8
  | .eTab => .char8
  | .eNl => .char8
  | .eCr => .char8
  | .eSkip _ => .char8
  | .eEos => .eos
  | .start _ => .cmd8

end Sys2Proof
end

