-- ==== Sys2Proof/WellFormed.lean ====
section
/-! DEFINITION. Which terms of `Instr` the encodings admit. -/

namespace Sys2Proof

/-- The eleven characters that have a `CHAR8` row of their own (30_encoding.md R63, 40_token_alphabet.md R74). -/
def recognisedChars : List Byte := [0x09, 0x0A, 0x0D, 0x2B, 0x2C, 0x2D, 0x2E, 0x3C, 0x3E, 0x5B, 0x5D]

/-- `E_SKIP` stands for the 245 values that are none of the eleven (42_encoder.md R124); every other term is well formed. -/
def Instr.wf : Instr → Bool
  | .eSkip c => !recognisedChars.contains c
  | _ => true

/-- The well-formed instructions. -/
abbrev WellFormed (i : Instr) : Prop := i.wf = true

end Sys2Proof
end

