-- ==== Sys2Proof/Decode.lean ====
section
/-! DEFINITION. The decoder of the three bit formats and of the end-of-input condition (30_encoding.md R54, R56 to R58,
R62 to R64), and the encoder, written from the same tables. Both are total: there is no illegal encoding (R67). -/

namespace Sys2Proof

/-- What an item decodes to. The only item that is no instruction is a host write to `CMD` with bit 0 = 0, which the
spec calls no operation (R57). -/
inductive Decoded where
  | instr (i : Instr)
  | noOperation
  deriving DecidableEq, Repr

/-- The instruction of an item that has one. -/
def Decoded.toOption : Decoded → Option Instr
  | .instr i => some i
  | .noOperation => none

/-- `TOK4`: all 16 values (30_encoding.md R62). -/
def decodeTok (t : Token) : Instr :=
  match t.toNat with
  | 0 => .dCmd0
  | 1 => .dCmd1
  | 2 => .dCmd2
  | 3 => .dCmd3
  | 4 => .dCmd4
  | 5 => .dCmd5
  | 6 => .dCmd6
  | 7 => .dCmd7
  | 8 => .dPad
  | 9 => .dTab
  | 10 => .dNl
  | 11 => .dNop3
  | 12 => .dNop4
  | 13 => .dNop5
  | 14 => .dNop6
  | _ => .dNop7

/-- `CHAR8`: the eleven single values, tried first, and `E_SKIP` for every other (30_encoding.md R63, R64). -/
def decodeChar (c : Byte) : Instr :=
  if c = 0x3E then .eCmd0
  else if c = 0x3C then .eCmd1
  else if c = 0x2B then .eCmd2
  else if c = 0x2D then .eCmd3
  else if c = 0x2E then .eCmd4
  else if c = 0x2C then .eCmd5
  else if c = 0x5B then .eCmd6
  else if c = 0x5D then .eCmd7
  else if c = 0x09 then .eTab
  else if c = 0x0A then .eNl
  else if c = 0x0D then .eCr
  else .eSkip c

/-- `EOS`: no bit of any item is examined; the direction alone says which row it is (30_encoding.md R58). -/
def decodeEos : Direction → Instr
  | .encode => .eEos
  | .decode => .dEos

/-- `CMD8`: bit 0 is `start`, bits 7:1 are ignored (30_encoding.md R57). -/
def decodeCmd (v : Byte) : Decoded :=
  if v.extractLsb' 0 1 = 1 then .instr (.start (v.extractLsb' 1 7)) else .noOperation

/-- The decoder. -/
def decode : Item → Decoded
  | .tok t => .instr (decodeTok t)
  | .char c => .instr (decodeChar c)
  | .eos dir => .instr (decodeEos dir)
  | .cmd v => decodeCmd v

/-- The encoder: the item a well-formed instruction is written as (30_encoding.md R62, R63, R57, R58). -/
def encode : Instr → Item
  | .dCmd0 => .tok 0x0
  | .dCmd1 => .tok 0x1
  | .dCmd2 => .tok 0x2
  | .dCmd3 => .tok 0x3
  | .dCmd4 => .tok 0x4
  | .dCmd5 => .tok 0x5
  | .dCmd6 => .tok 0x6
  | .dCmd7 => .tok 0x7
  | .dPad => .tok 0x8
  | .dTab => .tok 0x9
  | .dNl => .tok 0xA
  | .dNop3 => .tok 0xB
  | .dNop4 => .tok 0xC
  | .dNop5 => .tok 0xD
  | .dNop6 => .tok 0xE
  | .dNop7 => .tok 0xF
  | .dEos => .eos .decode
  | .eCmd0 => .char 0x3E
  | .eCmd1 => .char 0x3C
  | .eCmd2 => .char 0x2B
  | .eCmd3 => .char 0x2D
  | .eCmd4 => .char 0x2E
  | .eCmd5 => .char 0x2C
  | .eCmd6 => .char 0x5B
  | .eCmd7 => .char 0x5D
  | .eTab => .char 0x09
  | .eNl => .char 0x0A
  | .eCr => .char 0x0D
  | .eSkip c => .char c
  | .eEos => .eos .encode
  | .start ignored => .cmd (ignored ++ (1 : BitVec 1))

/-- The item a word of the opcode table stands for, when the table's number of bits and the word are all that is known.
The formats share their bit patterns (the direction tells them apart, 30_encoding.md R53), so this takes the FIRST row
of spec/opcode_table.json, in the table's order, that matches, with `E_SKIP` last (its row says `priority: lowest`).
No bits at all: the end-of-input condition of the direction after reset. Up to 4 bits: a token. Up to 8 bits: a token
if bits 7:4 are zero, else one of the eight commands, else a `CMD8` value with bit 0 set, else a character. No format
is wider than 8 bits. DESIGN CHOICE (log 14). -/
def tableItem (nbits w : Nat) : Option Item :=
  if nbits = 0 then some (.eos .encode)
  else if nbits ≤ 4 then some (.tok (BitVec.ofNat 4 (w % 2 ^ nbits)))
  else if nbits ≤ 8 then
    let b : Nat := w % 2 ^ nbits
    if b < 16 then some (.tok (BitVec.ofNat 4 b))
    else
      match decodeChar (BitVec.ofNat 8 b) with
      | .eSkip c => if b % 2 = 1 then some (.cmd c) else some (.char c)
      | _ => some (.char (BitVec.ofNat 8 b))
  else none

/-- The instruction the decoder reads from a word of the opcode table (the host's question; log 14). -/
def decodeTableWord (nbits w : Nat) : Option Instr :=
  match tableItem nbits w with
  | some x => (decode x).toOption
  | none => none

end Sys2Proof
end

