-- ==== Sys2Proof/Machine/State.lean ====
section
/-! DEFINITION. The state of the block (10_state.md R9 to R32), the host's actions, the ways a step can stop, and the
state after hardware reset. -/

namespace Sys2Proof.Machine

/-- `HALF`: which half of `ACC` the next token goes to (10_state.md R11). -/
inductive Half where
  | awaitingHigh
  | awaitingLow
  deriving DecidableEq, Repr

/-- A record of the debug side channel (60_exceptions.md R147). -/
inductive TraceRecord where
  /-- A character the decoder appended (41_decoder.md R106). -/
  | decoded (ch : Byte)
  /-- A token the encoder placed: the source character, both halves of `ACC` after the placement and before any flush,
  `HALF` after the flip, and whether a byte was completed (42_encoder.md R128). -/
  | placed (c : Byte) (hi lo : Token) (half : Half) (flushed : Bool)
  deriving DecidableEq, Repr

/-- A memory space: the cells that hold a known byte, by index. -/
abbrev Memory := List Host.Cell

/-- The canonical form of a memory: indices strictly rising. A cell that is not listed has no listed value, so no entry
can equal what an unlisted index reads as. -/
abbrev Memory.wf (m : Memory) : Prop := m.Pairwise (fun c d => c.1 < d.1)

/-- The host's actions (20_memory.md R43, and the reads of `IN` and `DBG` of 10_state.md R26; log 10). -/
inductive HostOp where
  /-- `HostRead(n)`: read register number `n`. -/
  | readReg (n : Nat)
  /-- `HostWrite(n, v)`: write register number `n`. -/
  | writeReg (n v : Nat)
  /-- `HostWriteIn(i, v)`: write cell `i` of `IN`. -/
  | writeIn (i : Nat) (v : Byte)
  /-- Read cell `i` of `IN`. -/
  | readIn (i : Nat)
  /-- `HostReadOut(j)`: read cell `j` of `OUT`. -/
  | readOut (j : Nat)
  /-- Read record `k` of `DBG`, the oldest being 0. -/
  | readDbg (k : Nat)
  deriving DecidableEq, Repr

/-- What a host read returns. -/
inductive HostValue where
  | number (n : Nat)
  | record (r : TraceRecord)
  deriving DecidableEq, Repr

/-- One step's worth of the schedule: who moves (log 1, log 17). -/
inductive Slot where
  | engine
  | host (op : HostOp)
  | reset
  deriving DecidableEq, Repr

/-- The state. Every register has one home; `CTRL` and `STATUS` as words are the views `ctrlWord` and `statusWord`. -/
structure State where
  /-- `ACC` (R10). -/
  acc : Byte
  /-- `HALF` (R11). -/
  half : Half
  /-- `CUR` (R14): a byte index (encode) or a bit index (decode). -/
  cur : Nat
  /-- `CTRL.MODE` (R17). -/
  mode : Direction
  /-- `CTRL.LOSSY` (R18). -/
  lossy : Bool
  /-- `CTRL.DEBUG` (R19). -/
  debug : Bool
  /-- `STATUS.BUSY` (R22). -/
  busy : Bool
  /-- `STATUS.DONE` (R22). -/
  done : Bool
  /-- `IN_LEN` (R23). -/
  inLen : Nat
  /-- `OUT_LEN` (R24). -/
  outLen : Nat
  /-- `IN` (R27): the cells written since the last hardware reset. -/
  inCells : Memory
  /-- `OUT` (R28): the cells written since the last hardware reset. -/
  outCells : Memory
  /-- `DBG` (R30): the records, oldest first. -/
  dbg : List TraceRecord
  /-- `IN_CAP`, an open parameter (D6): `none` is unbounded. No step changes it (log 2). -/
  inCap : Option Nat
  /-- The model's own: how many hardware resets there have been (log 4). -/
  resets : Nat
  /-- The model's own: what `IN` held before the last hardware reset (log 4). -/
  inBefore : Memory
  /-- The model's own: who moves next; when it is empty the engine moves (log 1). -/
  schedule : List Slot
  /-- The model's own: what the host's last read returned (log 7). -/
  readData : Option HostValue
  deriving DecidableEq, Repr

/-- Host accesses to something the spec says does not exist. The engine raises no fault (60_exceptions.md R134). -/
inductive Fault where
  /-- Raised by `HostRead` and `HostWrite` of a register number above 4 (10_state.md section 3). Safe: the step stops. -/
  | noSuchRegister (n : Nat)
  /-- Raised by a host access to `IN` at an index at or above `IN_CAP` (10_state.md R26). Safe: the step stops. -/
  | noSuchInCell (i : Nat)
  /-- Raised by a host read of a `DBG` record that has not been appended (10_state.md R30). Safe: the step stops. -/
  | noSuchRecord (k : Nat)
  deriving DecidableEq, Repr

/-- Actions to which the spec gives no meaning. -/
inductive Refusal where
  /-- An instruction of the table that has no meaning yet. Raised only by an arm of `exec`. Safe. -/
  | notModelled (mnemonic : String)
  /-- Raised by `START` while `STATUS.BUSY = 1` (60_exceptions.md R137). Safe: the spec says refuse. -/
  | startWhileBusy
  /-- Raised by `START` with `IN_LEN > IN_CAP` (60_exceptions.md R137). Safe: the spec says refuse. -/
  | inputLongerThanBuffer
  /-- Raised by a host write of `CTRL`, `IN_LEN` or `IN` while `BUSY` (60_exceptions.md R137). Safe: the spec says refuse. -/
  | hostWriteWhileBusy
  /-- Raised by a host read of `OUT`, `OUT_LEN` or `IN` while `BUSY` (60_exceptions.md R137, 20_memory.md R47).
  Safe: the step stops. -/
  | hostReadWhileBusy
  /-- Raised by a host read of `OUT` at an index that holds no result (60_exceptions.md R137, 20_memory.md R52).
  Safe: the spec says refuse. -/
  | outCellWithoutValue
  /-- Raised by a host write of a value wider than the register (log 9). Safe: the step stops. -/
  | valueTooWide
  deriving DecidableEq, Repr

/-- The state after hardware reset (70_reset_and_hazards.md R150, 10_state.md R32). Memories list nothing. The model's
own fields and `inCap` are DESIGN CHOICES (logs 1, 2, 4, 7). -/
def State.reset : State where
  acc := 0x00
  half := .awaitingHigh
  cur := 0
  mode := .encode
  lossy := false
  debug := false
  busy := false
  done := false
  inLen := 0
  outLen := 0
  inCells := []
  outCells := []
  dbg := []
  inCap := none
  resets := 0
  inBefore := []
  schedule := []
  readData := none

end Sys2Proof.Machine
end

