-- ==== Sys2Proof/Machine/Flags.lean ====
section
/-! DEFINITION. The one-bit items (10_state.md R25) and the control and status words. The block has no condition codes.
-/

namespace Sys2Proof.Machine

/-- A Bool as a bit at position `k` of a byte. -/
def bitAt (b : Bool) (k : Nat) : Byte := if b then (1 : Byte) <<< k else 0

/-- `CTRL` as a word: bit 0 `MODE`, bit 1 `LOSSY`, bit 2 `DEBUG`, bits 7:3 read as 0 (10_state.md R16). -/
def ctrlWord (s : State) : Byte :=
  bitAt (decide (s.mode = .decode)) 0 ||| bitAt s.lossy 1 ||| bitAt s.debug 2

/-- A write of `CTRL`: the three fields take the written bits, bits 7:3 are ignored (10_state.md R16). -/
def writeCtrl (v : Byte) (s : State) : State :=
  { s with
    mode := if v.getLsbD 0 then .decode else .encode
    lossy := v.getLsbD 1
    debug := v.getLsbD 2 }

/-- `STATUS` as a word: bit 0 `BUSY`, bit 1 `DONE`, bits 7:2 read as 0 (10_state.md R22). -/
def statusWord (s : State) : Byte := bitAt s.busy 0 ||| bitAt s.done 1

/-- The optional level output `done`, the same bit as `STATUS.DONE` (60_exceptions.md R138). -/
def doneLine (s : State) : Bool := s.done

/-- `HALF` flips when a token is placed (10_state.md R11). -/
def flipHalf : Half → Half
  | .awaitingHigh => .awaitingLow
  | .awaitingLow => .awaitingHigh

/-- The end of a run: `STATUS.BUSY <- 0; STATUS.DONE <- 1` (41_decoder.md R105, 42_encoder.md R127). -/
def finishRun (s : State) : State := { s with busy := false, done := true }

end Sys2Proof.Machine
end

