-- ==== Sys2Proof/Machine/Params.lean ====
section
/-! DEFINITION. What is fixed for the block: the parameter table of 00_scope.md section 4, with the decided values of
92_eei_decisions.md D1 to D3, and what the open capacity `IN_CAP` decides (D6). -/

namespace Sys2Proof

/-- `FMT_PAD`, the payload of the alignment no-op (the source's own value). -/
def Config.fmtPad : Code := 0

/-- `FMT_TAB`, 1 by the spec's decision D2. UNVERIFIED (log 16). -/
def Config.fmtTab : Code := 1

/-- `FMT_NL`, 2 by the spec's decision D2. UNVERIFIED (log 16). -/
def Config.fmtNl : Code := 2

/-! Code points, 40_token_alphabet.md R74. ASCII by the spec's decision D3. UNVERIFIED (log 16). -/

def Config.chGt : Byte := 0x3E
def Config.chLt : Byte := 0x3C
def Config.chPlus : Byte := 0x2B
def Config.chMinus : Byte := 0x2D
def Config.chDot : Byte := 0x2E
def Config.chComma : Byte := 0x2C
def Config.chLbrack : Byte := 0x5B
def Config.chRbrack : Byte := 0x5D
def Config.chTab : Byte := 0x09
def Config.chNl : Byte := 0x0A
def Config.chCr : Byte := 0x0D

/-- `LEN_W` for a bounded input buffer: the least width in which `IN_CAP` is representable (00_scope.md section 4). -/
def Config.lenW (inCap : Nat) : Nat := if inCap = 0 then 0 else Nat.log2 inCap + 1

/-- `n <= IN_CAP`; `none` is an unbounded buffer. -/
def Config.inFits (inCap : Option Nat) (n : Nat) : Bool :=
  match inCap with
  | none => true
  | some c => decide (n ≤ c)

/-- `IN` has a cell at index `i` (10_state.md R26: 0 to `IN_CAP - 1`). -/
def Config.inHasCell (inCap : Option Nat) (i : Nat) : Bool :=
  match inCap with
  | none => true
  | some c => decide (i < c)

/-- `v` fits the `LEN_W` bits of register `IN_LEN`. -/
def Config.fitsLenReg (inCap : Option Nat) (v : Nat) : Bool :=
  match inCap with
  | none => true
  | some c => decide (v < 2 ^ Config.lenW c)

/-- `n <= OUT_CAP`, where `OUT_CAP = 2 * IN_CAP` (D6). -/
def Config.outFits (inCap : Option Nat) (n : Nat) : Bool :=
  match inCap with
  | none => true
  | some c => decide (n ≤ 2 * c)

end Sys2Proof
end

