-- ==== Sys2Proof/Machine/Operands.lean ====
section
/-! DEFINITION. The operand forms: taking tokens and bytes apart and together (30_encoding.md R54, R55, R59, R60), the
four functions of the token alphabet (40_token_alphabet.md R75 to R78) and the two ROMs built from them (R81 to R84). -/

namespace Sys2Proof.Machine

/-- `{flag, payload} = (flag << 3) | payload` (30_encoding.md R59). -/
def mkToken (flag : BitVec 1) (payload : Code) : Token :=
  (flag.setWidth 4 <<< 3) ||| payload.setWidth 4

/-- `tok[3]` (R59). -/
def flagOf (t : Token) : BitVec 1 := t.extractLsb' 3 1

/-- `tok[2:0]` (R59). -/
def payloadOf (t : Token) : Code := t.extractLsb' 0 3

/-- `{hi, lo} = (hi << 4) | lo` (30_encoding.md R60). -/
def mkByte (hi lo : Token) : Byte := (hi.setWidth 8 <<< 4) ||| lo.setWidth 8

/-- `b[7:4]`, the earlier token of a packed byte (R55, R60). -/
def hiNibble (b : Byte) : Token := b.extractLsb' 4 4

/-- `b[3:0]`, the later token of a packed byte (R55, R60). -/
def loNibble (b : Byte) : Token := b.extractLsb' 0 4

/-- `commandCode(c)` (40_token_alphabet.md R75). -/
def commandCode (c : Byte) : Option Code :=
  if c = Config.chGt then some 0
  else if c = Config.chLt then some 1
  else if c = Config.chPlus then some 2
  else if c = Config.chMinus then some 3
  else if c = Config.chDot then some 4
  else if c = Config.chComma then some 5
  else if c = Config.chLbrack then some 6
  else if c = Config.chRbrack then some 7
  else none

/-- `codeCommand(k)`, the table `CMD_ROM` (40_token_alphabet.md R76). -/
def codeCommand (k : Code) : Byte :=
  match k.toNat with
  | 0 => Config.chGt
  | 1 => Config.chLt
  | 2 => Config.chPlus
  | 3 => Config.chMinus
  | 4 => Config.chDot
  | 5 => Config.chComma
  | 6 => Config.chLbrack
  | _ => Config.chRbrack

/-- `formattingCode(c)` (40_token_alphabet.md R77). -/
def formattingCode (c : Byte) : Option Code :=
  if c = Config.chTab then some Config.fmtTab
  else if c = Config.chNl then some Config.fmtNl
  else none

/-- `codeFormatting(k)` (40_token_alphabet.md R78). -/
def codeFormatting (k : Code) : Option Byte :=
  if k = Config.fmtTab then some Config.chTab
  else if k = Config.fmtNl then some Config.chNl
  else none

/-- `encTok(c, lossy)`, the contents of `ENC_ROM` (40_token_alphabet.md R81, R83). -/
def encTok (c : Byte) (lossy : Bool) : Option Token :=
  match commandCode c with
  | some k => some (mkToken 0 k)
  | none =>
    match formattingCode c with
    | some k => if lossy then none else some (mkToken 1 k)
    | none => none

/-- `decChar(tok, lossy)`, the format flag interpreter and the contents of `DEC_ROM` (40_token_alphabet.md R82, R83). -/
def decChar (t : Token) (lossy : Bool) : Option Byte :=
  if flagOf t = 1 ∧ lossy = false then codeFormatting (payloadOf t) else some (codeCommand (payloadOf t))

/-- `PAD_TOK = {1, FMT_PAD} = 0x8` (40_token_alphabet.md R84). -/
def padTok : Token := mkToken 1 Config.fmtPad

/-- Bit `7 - (k mod 8)` of the byte that holds stream bit `k` (20_memory.md R33). -/
def bitInByte (b : Byte) (k : Nat) : Bool := b.getLsbD (7 - k % 8)

end Sys2Proof.Machine
end

