-- ==== Sys2Proof/Machine/Ops.lean ====
section
/-! DEFINITION. The named operations over memories and registers: reading and writing cells, the fetch of an item
(20_memory.md R33, R36, 41_decoder.md R87), `Emit` (20_memory.md R37), `Trace` (60_exceptions.md R147), the nibble packer
(42_encoder.md R125, R126), the start of a run and hardware reset (70_reset_and_hazards.md R150, R151).
The block raises no exception and has no trap entry or return (60_exceptions.md R134, R140, R141), so there is no
operation here that takes an exception. -/

namespace Sys2Proof.Machine

/-- The byte listed at index `i`, if any. -/
def Memory.read : Memory → Nat → Option Byte
  | [], _ => none
  | (a, v) :: rest, i => if i = a then some v else Memory.read rest i

/-- Write one byte, keeping the indices in order. -/
def Memory.write : Memory → Nat → Byte → Memory
  | [], i, v => [(i, v)]
  | (a, w) :: rest, i, v =>
    if i < a then (i, v) :: (a, w) :: rest
    else if i = a then (i, v) :: rest
    else (a, w) :: Memory.write rest i v

/-- Write every cell of the second memory over the first. -/
def Memory.overlay (m : Memory) : Memory → Memory
  | [] => m
  | (a, v) :: rest => Memory.overlay (Memory.write m a v) rest

/-- `MemRead(IN:i, 1)` (20_memory.md R36). A cell nothing has written since reset holds an unspecified byte, a free
value (log 4). -/
def inByte (s : State) (i : Nat) : Byte :=
  match Memory.read s.inCells i with
  | some v => v
  | none => Config.unwrittenIn s.resets s.inBefore i

/-- `StreamBit(k)` (20_memory.md R33). -/
def streamBit (s : State) (k : Nat) : Bool := bitInByte (inByte s (k / 8)) k

/-- `FetchToken(CUR)` (41_decoder.md R87). -/
def fetchToken (s : State) : Token :=
  if s.cur % 8 = 0 then hiNibble (inByte s (s.cur / 8)) else loNibble (inByte s (s.cur / 8))

/-- `END`: `IN_LEN` in encode mode, `8 * IN_LEN` in decode mode (10_state.md R15). -/
def endOf (s : State) : Nat :=
  match s.mode with
  | .encode => s.inLen
  | .decode => 8 * s.inLen

/-- The item of the engine's next step: `CUR` is compared with `END` before anything is fetched (30_encoding.md R58).
`CUR` never exceeds `END` (10_state.md R15); in a state where it does, which no run reaches, the run ends. DESIGN CHOICE
(log 11). -/
def fetchItem (s : State) : Item :=
  if s.cur < endOf s then
    match s.mode with
    | .encode => .char (inByte s s.cur)
    | .decode => .tok (fetchToken s)
  else .eos s.mode

/-- The instruction of the engine's next step: the decoding of `fetchItem`, which always is one. -/
def fetchInstr (s : State) : Instr :=
  if s.cur < endOf s then
    match s.mode with
    | .encode => decodeChar (inByte s s.cur)
    | .decode => decodeTok (fetchToken s)
  else decodeEos s.mode

/-- `CUR <- CUR + n`, the last action of a step (10_state.md R15). -/
def advance (n : Nat) (s : State) : State := { s with cur := s.cur + n }

/-- `Emit(v)`: append one byte to `OUT` (20_memory.md R37). -/
def emit (v : Byte) (s : State) : State :=
  { s with outCells := Memory.write s.outCells s.outLen v, outLen := s.outLen + 1 }

/-- `Trace(record)` (60_exceptions.md R147). -/
def trace (r : TraceRecord) (s : State) : State :=
  { s with dbg := if s.debug then s.dbg ++ [r] else s.dbg }

/-- The decoder appends a character: `Emit(ch); Trace(decoded ch)` (41_decoder.md R88, R106). -/
def appendChar (ch : Byte) (s : State) : State := trace (.decoded ch) (emit ch s)

/-- `Flush()`: write out a complete byte (42_encoder.md R126). -/
def flush (s : State) : State := { emit s.acc s with acc := 0x00 }

/-- Fill one half of `ACC` and flip `HALF` (42_encoder.md R125, the two assignments of either branch). -/
def fillHalf (t : Token) (s : State) : State :=
  match s.half with
  | .awaitingHigh => { s with acc := t.setWidth 8 <<< 4, half := flipHalf s.half }
  | .awaitingLow => { s with acc := s.acc ||| t.setWidth 8, half := flipHalf s.half }

/-- The trace record of a placement, read from the state just after it (42_encoder.md R128). -/
def placedRecord (c : Byte) (flushed : Bool) (s : State) : TraceRecord :=
  .placed c (hiNibble s.acc) (loNibble s.acc) s.half flushed

/-- `Place(tok, c)` (42_encoder.md R125): fill a half, trace, and flush when the low half has just been filled. -/
def place (t : Token) (c : Byte) (s : State) : State :=
  match s.half with
  | .awaitingHigh => trace (placedRecord c false (fillHalf t s)) (fillHalf t s)
  | .awaitingLow => flush (trace (placedRecord c true (fillHalf t s)) (fillHalf t s))

/-- The alignment padding generator: complete a half-filled last byte with the pad token (42_encoder.md R127). -/
def padLastByte (s : State) : State :=
  match s.half with
  | .awaitingHigh => s
  | .awaitingLow => { emit (s.acc ||| padTok.setWidth 8) s with acc := 0x00, half := .awaitingHigh }

/-- The assignments of `START` (60_exceptions.md R144, 70_reset_and_hazards.md R151). `CTRL`, `IN_LEN` and `IN`
are left alone (R152), and so is the list of the written cells of `OUT`, a DESIGN CHOICE (log 5). -/
def beginRun (s : State) : State :=
  { s with
    acc := 0x00
    half := .awaitingHigh
    cur := 0
    outLen := 0
    dbg := []
    done := false
    busy := true }

/-- Hardware reset (70_reset_and_hazards.md R150): every register as after reset. The cells of `IN` and `OUT` are not
reset but hold unspecified values; for `IN` that is a new free value, which may depend on what was there (log 4, log 17).
The schedule, what the host has read and the capacity are no state of the block that reset touches. -/
def hardReset (s : State) : State :=
  { State.reset with
    inCap := s.inCap
    resets := s.resets + 1
    inBefore := Memory.overlay s.inBefore s.inCells
    schedule := s.schedule
    readData := s.readData }

end Sys2Proof.Machine
end

