-- ==== Sys2Proof/Machine/Decoder.lean ====
section
/-! DEFINITION. The decode direction: one meaning per token (41_decoder.md R89 to R104) and the end-of-input step (R105).
Each meaning is its rule's own pseudocode. -/

namespace Sys2Proof.Machine

/-- `D_CMD0`: append `>`, whatever `LOSSY` is (41_decoder.md R89). -/
def execDCmd0 (s : State) : Host.Outcome State Fault Refusal :=
  .next (advance 4 (appendChar Config.chGt s))

/-- `D_CMD1`: append `<`, whatever `LOSSY` is (41_decoder.md R90). -/
def execDCmd1 (s : State) : Host.Outcome State Fault Refusal :=
  .next (advance 4 (appendChar Config.chLt s))

/-- `D_CMD2`: append `+`, whatever `LOSSY` is (41_decoder.md R91). -/
def execDCmd2 (s : State) : Host.Outcome State Fault Refusal :=
  .next (advance 4 (appendChar Config.chPlus s))

/-- `D_CMD3`: append `-`, whatever `LOSSY` is (41_decoder.md R92). -/
def execDCmd3 (s : State) : Host.Outcome State Fault Refusal :=
  .next (advance 4 (appendChar Config.chMinus s))

/-- `D_CMD4`: append `.`, whatever `LOSSY` is (41_decoder.md R93). -/
def execDCmd4 (s : State) : Host.Outcome State Fault Refusal :=
  .next (advance 4 (appendChar Config.chDot s))

/-- `D_CMD5`: append `,`, whatever `LOSSY` is (41_decoder.md R94). -/
def execDCmd5 (s : State) : Host.Outcome State Fault Refusal :=
  .next (advance 4 (appendChar Config.chComma s))

/-- `D_CMD6`: append `[`, whatever `LOSSY` is (41_decoder.md R95). -/
def execDCmd6 (s : State) : Host.Outcome State Fault Refusal :=
  .next (advance 4 (appendChar Config.chLbrack s))

/-- `D_CMD7`: append `]`, whatever `LOSSY` is (41_decoder.md R96). -/
def execDCmd7 (s : State) : Host.Outcome State Fault Refusal :=
  .next (advance 4 (appendChar Config.chRbrack s))

/-- `D_PAD`: nothing with `LOSSY = 0`, `>` with `LOSSY = 1` (41_decoder.md R97). -/
def execDPad (s : State) : Host.Outcome State Fault Refusal :=
  .next (advance 4 (if s.lossy then appendChar Config.chGt s else s))

/-- `D_TAB`: TAB with `LOSSY = 0`, the command of payload `FMT_TAB` with `LOSSY = 1` (41_decoder.md R98). -/
def execDTab (s : State) : Host.Outcome State Fault Refusal :=
  .next (advance 4 (appendChar (if s.lossy then codeCommand Config.fmtTab else Config.chTab) s))

/-- `D_NL`: NL with `LOSSY = 0`, the command of payload `FMT_NL` with `LOSSY = 1` (41_decoder.md R99). -/
def execDNl (s : State) : Host.Outcome State Fault Refusal :=
  .next (advance 4 (appendChar (if s.lossy then codeCommand Config.fmtNl else Config.chNl) s))

/-- `D_NOP3`: nothing with `LOSSY = 0`, `-` with `LOSSY = 1` (41_decoder.md R100). -/
def execDNop3 (s : State) : Host.Outcome State Fault Refusal :=
  .next (advance 4 (if s.lossy then appendChar Config.chMinus s else s))

/-- `D_NOP4`: nothing with `LOSSY = 0`, `.` with `LOSSY = 1` (41_decoder.md R101). -/
def execDNop4 (s : State) : Host.Outcome State Fault Refusal :=
  .next (advance 4 (if s.lossy then appendChar Config.chDot s else s))

/-- `D_NOP5`: nothing with `LOSSY = 0`, `,` with `LOSSY = 1` (41_decoder.md R102). -/
def execDNop5 (s : State) : Host.Outcome State Fault Refusal :=
  .next (advance 4 (if s.lossy then appendChar Config.chComma s else s))

/-- `D_NOP6`: nothing with `LOSSY = 0`, `[` with `LOSSY = 1` (41_decoder.md R103). -/
def execDNop6 (s : State) : Host.Outcome State Fault Refusal :=
  .next (advance 4 (if s.lossy then appendChar Config.chLbrack s else s))

/-- `D_NOP7`: nothing with `LOSSY = 0`, `]` with `LOSSY = 1` (41_decoder.md R104). -/
def execDNop7 (s : State) : Host.Outcome State Fault Refusal :=
  .next (advance 4 (if s.lossy then appendChar Config.chRbrack s else s))

/-- `D_EOS`: the run ends, nothing is appended (41_decoder.md R105). -/
def execDEos (s : State) : Host.Outcome State Fault Refusal :=
  .next (finishRun s)

end Sys2Proof.Machine
end

