-- ==== Sys2Proof/Machine/Encoder.lean ====
section
/-! DEFINITION. The encode direction: one meaning per character class (42_encoder.md R113 to R124) and the end-of-input
step (R127). Each meaning is its rule's own pseudocode. -/

namespace Sys2Proof.Machine

/-- `E_CMD0`: place token 0x0 for `>`, whatever `LOSSY` is (42_encoder.md R113). -/
def execECmd0 (s : State) : Host.Outcome State Fault Refusal :=
  .next (advance 1 (place 0x0 Config.chGt s))

/-- `E_CMD1`: place token 0x1 for `<`, whatever `LOSSY` is (42_encoder.md R114). -/
def execECmd1 (s : State) : Host.Outcome State Fault Refusal :=
  .next (advance 1 (place 0x1 Config.chLt s))

/-- `E_CMD2`: place token 0x2 for `+`, whatever `LOSSY` is (42_encoder.md R115). -/
def execECmd2 (s : State) : Host.Outcome State Fault Refusal :=
  .next (advance 1 (place 0x2 Config.chPlus s))

/-- `E_CMD3`: place token 0x3 for `-`, whatever `LOSSY` is (42_encoder.md R116). -/
def execECmd3 (s : State) : Host.Outcome State Fault Refusal :=
  .next (advance 1 (place 0x3 Config.chMinus s))

/-- `E_CMD4`: place token 0x4 for `.`, whatever `LOSSY` is (42_encoder.md R117). -/
def execECmd4 (s : State) : Host.Outcome State Fault Refusal :=
  .next (advance 1 (place 0x4 Config.chDot s))

/-- `E_CMD5`: place token 0x5 for `,`, whatever `LOSSY` is (42_encoder.md R118). -/
def execECmd5 (s : State) : Host.Outcome State Fault Refusal :=
  .next (advance 1 (place 0x5 Config.chComma s))

/-- `E_CMD6`: place token 0x6 for `[`, whatever `LOSSY` is (42_encoder.md R119). -/
def execECmd6 (s : State) : Host.Outcome State Fault Refusal :=
  .next (advance 1 (place 0x6 Config.chLbrack s))

/-- `E_CMD7`: place token 0x7 for `]`, whatever `LOSSY` is (42_encoder.md R120). -/
def execECmd7 (s : State) : Host.Outcome State Fault Refusal :=
  .next (advance 1 (place 0x7 Config.chRbrack s))

/-- `E_TAB`: place `{1, FMT_TAB}` with `LOSSY = 0`, nothing with `LOSSY = 1` (42_encoder.md R121). -/
def execETab (s : State) : Host.Outcome State Fault Refusal :=
  .next (advance 1 (if s.lossy then s else place (mkToken 1 Config.fmtTab) Config.chTab s))

/-- `E_NL`: place `{1, FMT_NL}` with `LOSSY = 0`, nothing with `LOSSY = 1` (42_encoder.md R122). -/
def execENl (s : State) : Host.Outcome State Fault Refusal :=
  .next (advance 1 (if s.lossy then s else place (mkToken 1 Config.fmtNl) Config.chNl s))

/-- `E_CR`: skipped (42_encoder.md R123). -/
def execECr (s : State) : Host.Outcome State Fault Refusal :=
  .next (advance 1 s)

/-- `E_SKIP`: a foreign byte is skipped, whichever it is (42_encoder.md R124). -/
def execESkip (_c : Byte) (s : State) : Host.Outcome State Fault Refusal :=
  .next (advance 1 s)

/-- `E_EOS`: complete a half-filled last byte with the pad, then the run ends (42_encoder.md R127). -/
def execEEos (s : State) : Host.Outcome State Fault Refusal :=
  .next (finishRun (padLastByte s))

end Sys2Proof.Machine
end

