-- ==== Sys2Proof/Machine/RunControl.lean ====
section
/-! DEFINITION. The one system operation, `START` (60_exceptions.md R144). -/

namespace Sys2Proof.Machine

/-- `START`: begin a run. Bits 7:1 of the value written to `CMD` are ignored (30_encoding.md R57). While `BUSY`, or with
`IN_LEN > IN_CAP`, the action has no meaning and is refused (60_exceptions.md R137). -/
def execStart (_ignored : BitVec 7) (s : State) : Host.Outcome State Fault Refusal :=
  if s.busy then .refused .startWhileBusy
  else if Config.inFits s.inCap s.inLen then .next (beginRun s)
  else .refused .inputLongerThanBuffer

end Sys2Proof.Machine
end

