-- ==== Sys2Proof/Machine/Dispatch.lean ====
section
/-! DEFINITION. From an instruction to its meaning, one arm per constructor. When an instruction is executed is the
step's business (Machine/Agents.lean); what it does is its meaning's. -/

namespace Sys2Proof.Machine

def exec (i : Instr) (s : State) : Host.Outcome State Fault Refusal :=
  match i with
  | .dCmd0 => Sys2Proof.Machine.execDCmd0 s
  | .dCmd1 => Sys2Proof.Machine.execDCmd1 s
  | .dCmd2 => Sys2Proof.Machine.execDCmd2 s
  | .dCmd3 => Sys2Proof.Machine.execDCmd3 s
  | .dCmd4 => Sys2Proof.Machine.execDCmd4 s
  | .dCmd5 => Sys2Proof.Machine.execDCmd5 s
  | .dCmd6 => Sys2Proof.Machine.execDCmd6 s
  | .dCmd7 => Sys2Proof.Machine.execDCmd7 s
  | .dPad => Sys2Proof.Machine.execDPad s
  | .dTab => Sys2Proof.Machine.execDTab s
  | .dNl => Sys2Proof.Machine.execDNl s
  | .dNop3 => Sys2Proof.Machine.execDNop3 s
  | .dNop4 => Sys2Proof.Machine.execDNop4 s
  | .dNop5 => Sys2Proof.Machine.execDNop5 s
  | .dNop6 => Sys2Proof.Machine.execDNop6 s
  | .dNop7 => Sys2Proof.Machine.execDNop7 s
  | .dEos => Sys2Proof.Machine.execDEos s
  | .eCmd0 => Sys2Proof.Machine.execECmd0 s
  | .eCmd1 => Sys2Proof.Machine.execECmd1 s
  | .eCmd2 => Sys2Proof.Machine.execECmd2 s
  | .eCmd3 => Sys2Proof.Machine.execECmd3 s
  | .eCmd4 => Sys2Proof.Machine.execECmd4 s
  | .eCmd5 => Sys2Proof.Machine.execECmd5 s
  | .eCmd6 => Sys2Proof.Machine.execECmd6 s
  | .eCmd7 => Sys2Proof.Machine.execECmd7 s
  | .eTab => Sys2Proof.Machine.execETab s
  | .eNl => Sys2Proof.Machine.execENl s
  | .eCr => Sys2Proof.Machine.execECr s
  | .eSkip c => Sys2Proof.Machine.execESkip c s
  | .eEos => Sys2Proof.Machine.execEEos s
  | .start ignored => Sys2Proof.Machine.execStart ignored s

end Sys2Proof.Machine
end

