-- ==== Sys2Proof/Machine/Agents.lean ====
section
/-! DEFINITION. The agents: the engine's step (41_decoder.md R86, 42_encoder.md R110, 60_exceptions.md R145), the host's
actions on the registers and buffers (10_state.md section 3, 20_memory.md R43, R47, 60_exceptions.md R137), and who moves.
-/

namespace Sys2Proof.Machine

/-- One step of the engine: while `BUSY` it executes the instruction of the item at `CUR`; in `IDLE` and `DONE` it
performs no step (60_exceptions.md R145, R149). -/
def engineStep (s : State) : Host.Outcome State Fault Refusal :=
  if s.busy then exec (fetchInstr s) s else .next s

/-- The value a host read returns. A read has no effect but this (20_memory.md R42; log 7). -/
def returnToHost (v : HostValue) (s : State) : State := { s with readData := some v }

/-- `HostRead(n)` (10_state.md section 3). `OUT_LEN` has no meaning to the host while `BUSY` (60_exceptions.md R137). -/
def hostReadReg (n : Nat) (s : State) : Host.Outcome State Fault Refusal :=
  match n with
  | 0 => .next (returnToHost (.number (ctrlWord s).toNat) s)
  | 1 => .next (returnToHost (.number 0) s)
  | 2 => .next (returnToHost (.number (statusWord s).toNat) s)
  | 3 => .next (returnToHost (.number s.inLen) s)
  | 4 => if s.busy then .refused .hostReadWhileBusy else .next (returnToHost (.number s.outLen) s)
  | _ => .fault (.noSuchRegister n)

/-- A host write of `CTRL` (10_state.md R16, R20, 60_exceptions.md R137). -/
def hostWriteCtrl (v : Nat) (s : State) : Host.Outcome State Fault Refusal :=
  if s.busy then .refused .hostWriteWhileBusy
  else if v < 256 then .next (writeCtrl (BitVec.ofNat 8 v) s)
  else .refused .valueTooWide

/-- A host write of `CMD`: bit 0 = 1 is `START`, bit 0 = 0 does nothing (10_state.md R21, 30_encoding.md R57). -/
def hostWriteCmd (v : Nat) (s : State) : Host.Outcome State Fault Refusal :=
  if v < 256 then
    match decode (.cmd (BitVec.ofNat 8 v)) with
    | .instr i => exec i s
    | .noOperation => .next s
  else .refused .valueTooWide

/-- A host write of `IN_LEN` (10_state.md R20, R23, 60_exceptions.md R137). -/
def hostWriteInLen (v : Nat) (s : State) : Host.Outcome State Fault Refusal :=
  if s.busy then .refused .hostWriteWhileBusy
  else if Config.fitsLenReg s.inCap v then .next { s with inLen := v }
  else .refused .valueTooWide

/-- `HostWrite(n, v)`. Writes of `STATUS` and `OUT_LEN` are ignored (10_state.md section 3). -/
def hostWriteReg (n v : Nat) (s : State) : Host.Outcome State Fault Refusal :=
  match n with
  | 0 => hostWriteCtrl v s
  | 1 => hostWriteCmd v s
  | 2 => .next s
  | 3 => hostWriteInLen v s
  | 4 => .next s
  | _ => .fault (.noSuchRegister n)

/-- `HostWriteIn(i, v)` (20_memory.md R43, R47, 60_exceptions.md R137). -/
def hostWriteIn (i : Nat) (v : Byte) (s : State) : Host.Outcome State Fault Refusal :=
  if s.busy then .refused .hostWriteWhileBusy
  else if Config.inHasCell s.inCap i then .next { s with inCells := Memory.write s.inCells i v }
  else .fault (.noSuchInCell i)

/-- A host read of `IN`, allowed when not `BUSY` (10_state.md R26). -/
def hostReadIn (i : Nat) (s : State) : Host.Outcome State Fault Refusal :=
  if s.busy then .refused .hostReadWhileBusy
  else if Config.inHasCell s.inCap i then .next (returnToHost (.number (inByte s i).toNat) s)
  else .fault (.noSuchInCell i)

/-- `HostReadOut(j)`: only cells below `OUT_LEN` have a value, and only when not `BUSY` (60_exceptions.md R137,
20_memory.md R52; logs 5, 6). -/
def hostReadOut (j : Nat) (s : State) : Host.Outcome State Fault Refusal :=
  if s.busy then .refused .hostReadWhileBusy
  else if j < s.outLen then
    match Memory.read s.outCells j with
    | some v => .next (returnToHost (.number v.toNat) s)
    | none => .refused .outCellWithoutValue
  else .refused .outCellWithoutValue

/-- A host read of `DBG` (10_state.md R26, R30). -/
def hostReadDbg (k : Nat) (s : State) : Host.Outcome State Fault Refusal :=
  match s.dbg[k]? with
  | some r => .next (returnToHost (.record r) s)
  | none => .fault (.noSuchRecord k)

/-- One action of the host. -/
def hostStep (op : HostOp) (s : State) : Host.Outcome State Fault Refusal :=
  match op with
  | .readReg n => hostReadReg n s
  | .writeReg n v => hostWriteReg n v s
  | .writeIn i v => hostWriteIn i v s
  | .readIn i => hostReadIn i s
  | .readOut j => hostReadOut j s
  | .readDbg k => hostReadDbg k s

/-- One step of the block and its environment: the first slot of the schedule says who moves; with an empty schedule the
engine does (log 1). -/
def stepAgents (s : State) : Host.Outcome State Fault Refusal :=
  match s.schedule with
  | [] => engineStep s
  | .engine :: rest => engineStep { s with schedule := rest }
  | .host op :: rest => hostStep op { s with schedule := rest }
  | .reset :: rest => .next (hardReset { s with schedule := rest })

/-- Make the engine the next to move, busy in direction `dir` over an input of `n` bytes (log 15). -/
def armEngine (dir : Direction) (n : Nat) (s : State) : State :=
  { s with
    mode := dir
    busy := true
    done := false
    inLen := n
    schedule := if s.schedule = [] then [] else .engine :: s.schedule }

/-- Store an item where the next step takes its item from, with all that this needs: a token in the half of the byte at
`CUR`, a character in the cell at `CUR`, the end of input as a length, a command as the host's next action (log 15). -/
def placeItem (x : Item) (s : State) : State :=
  match x with
  | .tok t =>
    armEngine .decode (max s.inLen (s.cur / 8 + 1))
      { s with
        inCells := Memory.write s.inCells (s.cur / 8) (if s.cur % 8 = 0 then mkByte t 0 else mkByte 0 t) }
  | .char c =>
    armEngine .encode (max s.inLen (s.cur + 1)) { s with inCells := Memory.write s.inCells s.cur c }
  | .eos .encode => armEngine .encode s.cur s
  | .eos .decode => armEngine .decode (s.cur / 8) s
  | .cmd v =>
    { s with
      busy := false
      inLen := if Config.inFits s.inCap s.inLen then s.inLen else 0
      schedule := .host (.writeReg 1 v.toNat) :: s.schedule }

/-- `placeItem` for a word of the opcode table (log 14, log 15). -/
def placeTableWord (nbits w : Nat) (s : State) : State :=
  match tableItem nbits w with
  | some x => placeItem x s
  | none => s

end Sys2Proof.Machine
end

