-- ==== Sys2Proof/Machine/Step.lean ====
section
/-! DEFINITION. The step of the machine, and the host's way of putting one instruction where the step takes it from. -/

namespace Sys2Proof.Machine

/-- One step: one agent's action (Machine/Agents.lean). -/
def step (s : State) : Host.Outcome State Fault Refusal := stepAgents s

/-- `s` with the instruction of the table word `w` stored where `step` takes its next instruction (log 15). -/
def State.withFetchWord (s : State) (nbits w : Nat) : State := placeTableWord nbits w s

end Sys2Proof.Machine
end

