-- ==== Sys2Proof/Safety.lean ====
section
/-! DEFINITION. The terms the claims use: what a run computes, read from the spec's sentences about whole runs; the
states a step leads to, field by field; and the invariants. -/

namespace Sys2Proof.Safety

open Sys2Proof.Machine

/-! ## Several steps -/

/-- `k` steps, stopping at the first fault or refusal. -/
def runSteps : Nat → State → Host.Outcome State Fault Refusal
  | 0, s => .next s
  | k + 1, s =>
    match step s with
    | .next t => runSteps k t
    | .fault f => .fault f
    | .refused r => .refused r

/-- How many steps a run still takes: one an item, and the end-of-input step (60_exceptions.md R145). -/
def stepsLeft (s : State) : Nat :=
  match s.mode with
  | .encode => s.inLen - s.cur + 1
  | .decode => (8 * s.inLen - s.cur) / 4 + 1

/-! ## What a run computes -/

/-- The tokens of a packed byte sequence, high nibble first (20_memory.md R35). -/
def tokensOf (bytes : List Byte) : List Token := bytes.flatMap (fun b => [hiNibble b, loNibble b])

/-- The text a packed byte sequence decodes to (41_decoder.md R108). -/
def decodeText (lossy : Bool) (bytes : List Byte) : List Byte :=
  (tokensOf bytes).filterMap (fun t => decChar t lossy)

/-- The tokens a source text is encoded to, the pad apart (42_encoder.md R132). -/
def encodeTokens (lossy : Bool) (text : List Byte) : List Token := text.filterMap (fun c => encTok c lossy)

/-- The input of a run: `IN[0 .. IN_LEN-1]`. -/
def inputBytes (s : State) : List Byte := (List.range s.inLen).map (inByte s)

/-- The result of a run: `OUT[0 .. OUT_LEN-1]`. -/
def resultBytes (s : State) : List (Option Byte) := (List.range s.outLen).map (Memory.read s.outCells)

/-- Token `k` of the packed bytes in `OUT`: in byte `k div 2`, high nibble if `k` is even (42_encoder.md R132). -/
def resultToken (s : State) (k : Nat) : Option Token :=
  (Memory.read s.outCells (k / 2)).map (fun b => if k % 2 = 0 then hiNibble b else loNibble b)

/-- The characters the round trip is stated for: the eight commands, TAB and NL (42_encoder.md R133). -/
def roundTripChars : List Byte := [0x3E, 0x3C, 0x2B, 0x2D, 0x2E, 0x2C, 0x5B, 0x5D, 0x09, 0x0A]

/-- The eight command characters (40_token_alphabet.md R76). -/
def commandChars : List Byte := [0x3E, 0x3C, 0x2B, 0x2D, 0x2E, 0x2C, 0x5B, 0x5D]

/-- The state at the entry of a run in direction `dir`, with the engine alone to move (41_decoder.md R86,
42_encoder.md R110). -/
abbrev AtRunStart (dir : Direction) (s : State) : Prop :=
  s.busy = true ∧ s.mode = dir ∧ s.cur = 0 ∧ s.outLen = 0 ∧ s.acc = 0x00 ∧ s.half = .awaitingHigh ∧ s.schedule = []

/-! ## The states a step leads to, field by field -/

/-- The `dbg` a record is appended to when `DEBUG = 1` (60_exceptions.md R147). -/
def dbgWith (r : TraceRecord) (s : State) : List TraceRecord := if s.debug then s.dbg ++ [r] else s.dbg

/-- After a decode step that appends the character `ch` (41_decoder.md R88). -/
def afterAppend (ch : Byte) (s : State) : State :=
  { s with
    outCells := Memory.write s.outCells s.outLen ch
    outLen := s.outLen + 1
    dbg := dbgWith (.decoded ch) s
    cur := s.cur + 4 }

/-- After an encode step that places token `t` for the character `c` (42_encoder.md R111, R125, R126, R128). -/
def afterPlace (t : Token) (c : Byte) (s : State) : State :=
  match s.half with
  | .awaitingHigh =>
    { s with
      acc := t.setWidth 8 <<< 4
      half := .awaitingLow
      dbg := dbgWith (.placed c t 0x0 .awaitingLow false) s
      cur := s.cur + 1 }
  | .awaitingLow =>
    { s with
      acc := 0x00
      half := .awaitingHigh
      outCells := Memory.write s.outCells s.outLen (s.acc ||| t.setWidth 8)
      outLen := s.outLen + 1
      dbg := dbgWith (.placed c (hiNibble (s.acc ||| t.setWidth 8)) (loNibble (s.acc ||| t.setWidth 8)) .awaitingHigh true) s
      cur := s.cur + 1 }

/-- What no step of the engine touches: `CTRL`, `IN_LEN`, `IN` and the fields that are not the block's. -/
abbrev SameSettings (s t : State) : Prop :=
  t.mode = s.mode ∧ t.lossy = s.lossy ∧ t.debug = s.debug ∧ t.inLen = s.inLen ∧ t.inCells = s.inCells ∧
    t.inCap = s.inCap ∧ t.resets = s.resets ∧ t.inBefore = s.inBefore ∧ t.schedule = s.schedule ∧ t.readData = s.readData

/-- Every cell of `OUT` but the one at index `j` reads in `t` as in `s`. -/
def OutSameBut (j : Nat) (s t : State) : Prop :=
  ∀ a, a ≠ j → Memory.read t.outCells a = Memory.read s.outCells a

/-- Every cell of `OUT` reads in `t` as in `s`. -/
def OutSame (s t : State) : Prop := ∀ a, Memory.read t.outCells a = Memory.read s.outCells a

/-! ## Invariants -/

/-- The invariant between `ACC` and `HALF` (10_state.md R13). -/
abbrev AccHalf (s : State) : Prop :=
  (s.half = .awaitingHigh → s.acc = 0x00) ∧ (s.half = .awaitingLow → loNibble s.acc = 0x0)

/-- How many tokens `ACC` holds. -/
def pending (s : State) : Nat :=
  match s.half with
  | .awaitingHigh => 0
  | .awaitingLow => 1

/-- The life cycle of a run (10_state.md R10, R11, R15, R22, R30, 60_exceptions.md R144, R145): never busy and done;
outside an encode run the packer is empty; within a run `CUR` is at most `END` and the input fits its buffer; in a decode
run `CUR` is a multiple of 4; no trace record without `DEBUG`. -/
abbrev RunOk (s : State) : Prop :=
  ¬(s.busy = true ∧ s.done = true) ∧
    ((s.busy = false ∨ s.mode = .decode) → s.acc = 0x00 ∧ s.half = .awaitingHigh) ∧
    (s.busy = true → s.cur ≤ endOf s ∧ Config.inFits s.inCap s.inLen = true) ∧
    (s.busy = true → s.mode = .decode → s.cur % 4 = 0) ∧
    (s.busy = true → s.debug = false → s.dbg = [])

/-- The output fits its buffer (20_memory.md R44): at most one byte for two characters, at most one character a token,
never more than `OUT_CAP`; and every byte of the result has been written. -/
abbrev OutOk (s : State) : Prop :=
  (s.busy = true → s.mode = .encode → 2 * s.outLen + pending s ≤ s.cur) ∧
    (s.busy = true → s.mode = .decode → 4 * s.outLen ≤ s.cur) ∧
    Config.outFits s.inCap s.outLen = true ∧
    (∀ j, j < s.outLen → (Memory.read s.outCells j).isSome = true)

/-- The memories are in canonical form and list only cells that exist (10_state.md R26). -/
abbrev MemOk (s : State) : Prop :=
  Memory.wf s.inCells ∧ Memory.wf s.outCells ∧ Memory.wf s.inBefore ∧
    (∀ c ∈ s.inCells, Config.inHasCell s.inCap c.1 = true) ∧
    (∀ c ∈ s.outCells, Config.outFits s.inCap (c.1 + 1) = true)

/-- The whole invariant. -/
abbrev Inv (s : State) : Prop := AccHalf s ∧ RunOk s ∧ OutOk s ∧ MemOk s

/-! ## Comparing runs -/

/-- A state without what the debug trace is made of. -/
def withoutDebug (s : State) : State := { s with debug := false, dbg := [] }

/-- The next state without what the debug trace is made of. -/
def outcomeWithoutDebug : Host.Outcome State Fault Refusal → Host.Outcome State Fault Refusal
  | .next s => .next (withoutDebug s)
  | .fault f => .fault f
  | .refused r => .refused r

end Sys2Proof.Safety
end

