-- ==== Sys2Proof/Certificates/Slice0/Obligations.lean ====
section
/-! DEFINITION. The statements for the provers. Each docstring names the rules of spec/ the statement formalises. -/

open Sys2Proof Sys2Proof.Machine Sys2Proof.Safety

/-! ## Encodings -/

/-- Decoding what the encoder writes gives the instruction back, operands included (30_encoding.md R58, R62, R63). That
`START` has an operand, bits 7:1 of the `CMD` value, is the model's choice (log 13): for the spec they are ignored (R57)
and `START` has none (60_exceptions.md R144). -/
def Obligations.DecodeUndoesEncode : Prop :=
  ∀ i : Instr, WellFormed i → decode (encode i) = .instr i

/-- Whatever decodes is well formed and is encoded as the item it came from, so no two items share an instruction of the
model. For tokens, characters and the end of input this is 30_encoding.md R58, R62, R63. For `CMD` values it is the
model's choice (log 13): it holds only because the constructor of `START` keeps bits 7:1, whereas for the spec the 128
values with bit 0 = 1 are one `START` without operands (R57, 60_exceptions.md R144). -/
def Obligations.EncodeUndoesDecode : Prop :=
  ∀ (x : Item) (i : Instr), decode x = .instr i → WellFormed i ∧ encode i = x

/-- Every token and every character is a well-formed instruction of its format that runs to a next state in every state;
a `CMD8` value is `START` by bit 0 alone and no operation without it; bits 7:1 change nothing (30_encoding.md R57, R67).
That `START` has those bits as its operand is the model's choice (log 13). -/
def Obligations.EveryEncodingIsDefined : Prop :=
  (∀ t : Token, ∃ i, decode (.tok t) = .instr i ∧ WellFormed i ∧ i.format = .tok4 ∧
      ∀ s : State, ∃ s', exec i s = .next s') ∧
    (∀ c : Byte, ∃ i, decode (.char c) = .instr i ∧ WellFormed i ∧ i.format = .char8 ∧
      ∀ s : State, ∃ s', exec i s = .next s') ∧
    (∀ v : Byte, decode (.cmd v) = if v.getLsbD 0 then .instr (.start (v.extractLsb' 1 7)) else .noOperation) ∧
    (∀ (g h : BitVec 7) (s : State), exec (.start g) s = exec (.start h) s)

/-- R64, which the spec derives from its tables: the eleven single-value `CHAR8` rows are disjoint, `E_SKIP` is taken
exactly when none of them matches (245 values), and the 16 `TOK4` rows are disjoint. -/
def Obligations.SkipIsTheDefaultRow : Prop :=
  recognisedChars.Nodup ∧ recognisedChars.length = 11 ∧
    (∀ c d : Byte, decodeChar c = .eSkip d ↔ d = c ∧ c ∉ recognisedChars) ∧
    ((List.range 256).filter (fun n => (Instr.eSkip (BitVec.ofNat 8 n)).wf)).length = 245 ∧
    (∀ t u : Token, decodeTok t = decodeTok u → t = u)

/-- Words written out from 30_encoding.md R62, R63 and R57 decode to the instructions they stand for. The operand of
`START` is the model's choice (log 13). -/
def Obligations.SpecWordsDecode : Prop :=
  decode (.tok 0b0000) = .instr .dCmd0 ∧ decode (.tok 0b0110) = .instr .dCmd6 ∧ decode (.tok 0b1000) = .instr .dPad ∧
    decode (.tok 0b1001) = .instr .dTab ∧ decode (.tok 0b1110) = .instr .dNop6 ∧
    decode (.char 0b00111110) = .instr .eCmd0 ∧ decode (.char 0b01011101) = .instr .eCmd7 ∧
    decode (.char 0b00001010) = .instr .eNl ∧ decode (.char 0b00100000) = .instr (.eSkip 0x20) ∧
    decode (.cmd 0b00000001) = .instr (.start 0) ∧ decode (.cmd 0b11111110) = .noOperation

/-- R59, R60: assembling and taking apart tokens and bytes. -/
def Obligations.NibbleAndByteAssembly : Prop :=
  (∀ (f : BitVec 1) (p : Code), (mkToken f p).toNat = f.toNat * 8 + p.toNat ∧ flagOf (mkToken f p) = f ∧
      payloadOf (mkToken f p) = p) ∧
    (∀ t : Token, mkToken (flagOf t) (payloadOf t) = t) ∧
    (∀ hi lo : Token, (mkByte hi lo).toNat = hi.toNat * 16 + lo.toNat ∧ hiNibble (mkByte hi lo) = hi ∧
      loNibble (mkByte hi lo) = lo) ∧
    (∀ b : Byte, mkByte (hiNibble b) (loNibble b) = b)

/-! ## The token alphabet -/

/-- R75 to R78: the tables of the four functions, every argument. -/
def Obligations.AlphabetTables : Prop :=
  (∀ c : Byte, commandCode c =
      List.lookup c [(0x3E, 0), (0x3C, 1), (0x2B, 2), (0x2D, 3), (0x2E, 4), (0x2C, 5), (0x5B, 6), (0x5D, 7)]) ∧
    (List.range 8).map (fun k => codeCommand (BitVec.ofNat 3 k)) = [0x3E, 0x3C, 0x2B, 0x2D, 0x2E, 0x2C, 0x5B, 0x5D] ∧
    (∀ c : Byte, formattingCode c = List.lookup c [(0x09, 1), (0x0A, 2)]) ∧
    (List.range 8).map (fun k => codeFormatting (BitVec.ofNat 3 k)) =
      [none, some 0x09, some 0x0A, none, none, none, none, none]

/-- R79: the four functions are mutually inverse wherever both sides are defined, and their domains are disjoint. -/
def Obligations.AlphabetIsInverse : Prop :=
  (∀ k, commandCode (codeCommand k) = some k) ∧
    (∀ c k, commandCode c = some k → codeCommand k = c) ∧
    (∀ c k, formattingCode c = some k → codeFormatting k = some c ∧ k ≠ 0) ∧
    (∀ k c, codeFormatting k = some c → formattingCode c = some k) ∧
    (∀ c, commandCode c = none ∨ formattingCode c = none)

/-- R83, which the spec derives, and R84: every cell of the two ROMs, and the pad token. -/
def Obligations.RomContents : Prop :=
  (∀ c : Byte, encTok c false =
      List.lookup c [(0x09, 0x9), (0x0A, 0xA), (0x2B, 0x2), (0x2C, 0x5), (0x2D, 0x3), (0x2E, 0x4), (0x3C, 0x1),
        (0x3E, 0x0), (0x5B, 0x6), (0x5D, 0x7)]) ∧
    (∀ c : Byte, encTok c true =
      List.lookup c [(0x2B, 0x2), (0x2C, 0x5), (0x2D, 0x3), (0x2E, 0x4), (0x3C, 0x1), (0x3E, 0x0), (0x5B, 0x6),
        (0x5D, 0x7)]) ∧
    (List.range 16).map (fun t => decChar (BitVec.ofNat 4 t) false) =
      [some 0x3E, some 0x3C, some 0x2B, some 0x2D, some 0x2E, some 0x2C, some 0x5B, some 0x5D, none, some 0x09,
        some 0x0A, none, none, none, none, none] ∧
    (List.range 16).map (fun t => decChar (BitVec.ofNat 4 t) true) =
      [some 0x3E, some 0x3C, some 0x2B, some 0x2D, some 0x2E, some 0x2C, some 0x5B, some 0x5D, some 0x3E, some 0x3C,
        some 0x2B, some 0x2D, some 0x2E, some 0x2C, some 0x5B, some 0x5D] ∧
    padTok = 0x8

/-! ## Fetch and step -/

/-- R87, and R33, which the spec derives: for `CUR` a multiple of 4 the token fetched is a nibble of the byte at `CUR div 8`, high nibble first, and
its bits, from bit 3 down, are the stream bits at `CUR` and on. -/
def Obligations.FetchedTokenIsFourStreamBits : Prop :=
  ∀ s : State, s.cur % 4 = 0 →
    (fetchToken s = if s.cur % 8 = 0 then hiNibble (inByte s (s.cur / 8)) else loNibble (inByte s (s.cur / 8))) ∧
      (∀ k, streamBit s k = (inByte s (k / 8)).getLsbD (7 - k % 8)) ∧
      ∀ k, k < 4 → (fetchToken s).getLsbD (3 - k) = streamBit s (s.cur + k)

/-- R58: the end of input is tested before any fetch. At `END` the engine's step is the end-of-input step of the
direction, whatever `IN` holds; below it the step fetches the item at `CUR` and runs its `CHAR8` or `TOK4` row. -/
def Obligations.EndOfInputIsTestedFirst : Prop :=
  ∀ s : State, s.busy = true →
    (s.cur = endOf s → s.mode = .encode → fetchItem s = .eos .encode ∧ engineStep s = exec .eEos s) ∧
      (s.cur = endOf s → s.mode = .decode → fetchItem s = .eos .decode ∧ engineStep s = exec .dEos s) ∧
      (s.cur < endOf s → s.mode = .encode → fetchItem s = .char (inByte s s.cur) ∧
        engineStep s = exec (decodeChar (inByte s s.cur)) s) ∧
      (s.cur < endOf s → s.mode = .decode → fetchItem s = .tok (fetchToken s) ∧
        engineStep s = exec (decodeTok (fetchToken s)) s)

/-- R36: the engine reads no cell of `IN` at or above `IN_LEN`: two states that differ there only fetch the same item. -/
def Obligations.FetchReadsOnlyTheInput : Prop :=
  ∀ s t : State, s.mode = t.mode → s.cur = t.cur → s.inLen = t.inLen → (∀ i, i < s.inLen → inByte s i = inByte t i) →
    fetchItem s = fetchItem t

/-- A step runs the decoded instruction: while busy the engine's step is `exec` of what the item at `CUR` decodes to,
with the engine's slot taken from the schedule; a host write of `CMD` runs what the value decodes to; when not busy the
engine's slot changes nothing (41_decoder.md R86, 42_encoder.md R110, 60_exceptions.md R144, R145; the schedule is the
model's own, log 1). -/
def Obligations.StepRunsTheDecodedInstruction : Prop :=
  ∀ (s : State) (r : List Slot) (i : Instr),
    (s.busy = true → (s.schedule = [] ∧ r = [] ∨ s.schedule = .engine :: r) → decode (fetchItem s) = .instr i →
        step s = exec i { s with schedule := r }) ∧
      (∀ v, v < 256 → s.schedule = .host (.writeReg 1 v) :: r → decode (.cmd (BitVec.ofNat 8 v)) = .instr i →
        step s = exec i { s with schedule := r }) ∧
      (s.busy = false → (s.schedule = [] ∧ r = [] ∨ s.schedule = .engine :: r) → step s = .next { s with schedule := r })

/-- R149: in `IDLE` and `DONE` the engine performs no step and all state is kept; only a host action or a reset that is
scheduled changes it. -/
def Obligations.IdleAndDonePerformNoStep : Prop :=
  ∀ s : State, s.busy = false → engineStep s = .next s ∧ (s.schedule = [] → step s = .next s)

/-- The engine is total and always makes progress (60_exceptions.md R134, 10_state.md R15, 70_reset_and_hazards.md R166):
while busy its step answers a next state, in every state; below `END` it advances `CUR` by the stride of the direction
and stays busy, otherwise it ends the run and leaves `CUR`. (`CUR > END`, which no run reaches, is the model's choice,
log 11.) -/
def Obligations.EngineStepProgresses : Prop :=
  ∀ s : State, s.busy = true → ∃ t, engineStep s = .next t ∧
    (s.cur < endOf s → t.busy = true ∧ t.done = s.done ∧ t.cur = s.cur + (if s.mode = .encode then 1 else 4)) ∧
    (endOf s ≤ s.cur → t.busy = false ∧ t.done = true ∧ t.cur = s.cur)

/-! ## The decode direction -/

/-- R89 to R96: each command token, at its encoding, appends its character, whatever `LOSSY` is, and advances `CUR` by
4; nothing else changes but the trace. -/
def Obligations.CommandTokensAppend : Prop :=
  ∀ p ∈ ([(.dCmd0, 0x0, 0x3E), (.dCmd1, 0x1, 0x3C), (.dCmd2, 0x2, 0x2B), (.dCmd3, 0x3, 0x2D), (.dCmd4, 0x4, 0x2E),
      (.dCmd5, 0x5, 0x2C), (.dCmd6, 0x6, 0x5B), (.dCmd7, 0x7, 0x5D)] : List (Instr × Token × Byte)),
    decode (.tok p.2.1) = .instr p.1 ∧ ∀ s : State, exec p.1 s = .next (afterAppend p.2.2 s)

/-- R97, R100 to R104: the pad and the no-op tokens, at their encodings, append nothing with `LOSSY = 0` and the command
of their payload with `LOSSY = 1`, wherever in the stream they stand. -/
def Obligations.PadAndNoopTokens : Prop :=
  ∀ p ∈ ([(.dPad, 0x8, 0x3E), (.dNop3, 0xB, 0x2D), (.dNop4, 0xC, 0x2E), (.dNop5, 0xD, 0x2C), (.dNop6, 0xE, 0x5B),
      (.dNop7, 0xF, 0x5D)] : List (Instr × Token × Byte)),
    decode (.tok p.2.1) = .instr p.1 ∧ ∀ s : State,
      (s.lossy = false → exec p.1 s = .next { s with cur := s.cur + 4 }) ∧
        (s.lossy = true → exec p.1 s = .next (afterAppend p.2.2 s))

/-- R98, R99: the tab and newline tokens, at their encodings, append their mark with `LOSSY = 0` and the command of their
payload with `LOSSY = 1`. -/
def Obligations.TabAndNewlineTokens : Prop :=
  decode (.tok 0x9) = .instr .dTab ∧ decode (.tok 0xA) = .instr .dNl ∧ ∀ s : State,
    (s.lossy = false → exec .dTab s = .next (afterAppend 0x09 s) ∧ exec .dNl s = .next (afterAppend 0x0A s)) ∧
      (s.lossy = true → exec .dTab s = .next (afterAppend 0x3C s) ∧ exec .dNl s = .next (afterAppend 0x2B s))

/-- R105: the end of a decode run sets the status bits and changes nothing else; it is the engine's step when `CUR` is
`8 * IN_LEN`. -/
def Obligations.DecodeEndOfInput : Prop :=
  ∀ s : State, exec .dEos s = .next { s with busy := false, done := true } ∧
    (s.busy = true → s.mode = .decode → s.cur = 8 * s.inLen →
      engineStep s = .next { s with busy := false, done := true })

/-- R88: every token executes the common decode step of `decChar`. -/
def Obligations.EveryTokenIsTheCommonStep : Prop :=
  ∀ (t : Token) (s : State), exec (decodeTok t) s = .next
    (match decChar t s.lossy with
      | some ch => afterAppend ch s
      | none => { s with cur := s.cur + 4 })

/-- The frame of the 16 tokens and `D_EOS` (41_decoder.md R85, R88, R105): the packer, the settings, `IN` and, for a
token, the status are unchanged; a token that gives a character stores it at `OUT_LEN` and nowhere else; one that gives
none, and `D_EOS`, store nothing. -/
def Obligations.DecodeFrame : Prop :=
  (∀ (tok : Token) (s t : State), exec (decodeTok tok) s = .next t →
      SameSettings s t ∧ t.acc = s.acc ∧ t.half = s.half ∧ t.busy = s.busy ∧ t.done = s.done ∧
        (∀ i, inByte t i = inByte s i) ∧ (s.debug = false → t.dbg = s.dbg) ∧
        (match decChar tok s.lossy with
          | some _ => OutSameBut s.outLen s t
          | none => t.outLen = s.outLen ∧ t.dbg = s.dbg ∧ OutSame s t)) ∧
    (∀ s t : State, exec .dEos s = .next t →
      SameSettings s t ∧ t.acc = s.acc ∧ t.half = s.half ∧ t.cur = s.cur ∧ t.outLen = s.outLen ∧ t.dbg = s.dbg ∧
        (∀ i, inByte t i = inByte s i) ∧ OutSame s t)

/-! ## The encode direction -/

/-- R125, R126, R128: `Place` in the high half overwrites `ACC`, in the low half completes the byte, appends it to `OUT`
and empties `ACC`; `HALF` flips; one trace record is made when `DEBUG = 1`. -/
def Obligations.PlaceAndFlush : Prop :=
  ∀ (t : Token) (c : Byte) (s : State),
    (s.half = .awaitingHigh →
        place t c s = { s with
          acc := t.setWidth 8 <<< 4
          half := .awaitingLow
          dbg := if s.debug then s.dbg ++ [.placed c t 0x0 .awaitingLow false] else s.dbg }) ∧
      (s.half = .awaitingLow → ∀ b, b = s.acc ||| t.setWidth 8 →
        place t c s = { s with
          acc := 0x00
          half := .awaitingHigh
          outCells := Memory.write s.outCells s.outLen b
          outLen := s.outLen + 1
          dbg := if s.debug then s.dbg ++ [.placed c (hiNibble b) (loNibble b) .awaitingHigh true] else s.dbg })

/-- The lanes are independent (42_encoder.md R130): under the packer's invariant, filling one half of `ACC` sets it to
the token and leaves the other half alone. -/
def Obligations.PackerLanesAreIndependent : Prop :=
  ∀ (t : Token) (s : State), AccHalf s →
    (s.half = .awaitingHigh → hiNibble (fillHalf t s).acc = t ∧ loNibble (fillHalf t s).acc = loNibble s.acc) ∧
      (s.half = .awaitingLow → hiNibble (fillHalf t s).acc = hiNibble s.acc ∧ loNibble (fillHalf t s).acc = t)

/-- R113 to R120: each command character, at its encoding, places its token, whatever `LOSSY` is, and advances `CUR` by
1. -/
def Obligations.CommandCharsPlace : Prop :=
  ∀ p ∈ ([(.eCmd0, 0x3E, 0x0), (.eCmd1, 0x3C, 0x1), (.eCmd2, 0x2B, 0x2), (.eCmd3, 0x2D, 0x3), (.eCmd4, 0x2E, 0x4),
      (.eCmd5, 0x2C, 0x5), (.eCmd6, 0x5B, 0x6), (.eCmd7, 0x5D, 0x7)] : List (Instr × Byte × Token)),
    decode (.char p.2.1) = .instr p.1 ∧ ∀ s : State, exec p.1 s = .next (afterPlace p.2.2 p.2.1 s)

/-- R121, R122: TAB and NL, at their encodings, place their tokens with `LOSSY = 0` and change nothing but `CUR` with
`LOSSY = 1`. -/
def Obligations.TabAndNewlineChars : Prop :=
  decode (.char 0x09) = .instr .eTab ∧ decode (.char 0x0A) = .instr .eNl ∧ ∀ s : State,
    (s.lossy = false → exec .eTab s = .next (afterPlace 0x9 0x09 s) ∧ exec .eNl s = .next (afterPlace 0xA 0x0A s)) ∧
      (s.lossy = true →
        exec .eTab s = .next { s with cur := s.cur + 1 } ∧ exec .eNl s = .next { s with cur := s.cur + 1 })

/-- R123, R124: CR and every foreign byte (the values that are none of the eleven) change nothing but `CUR`, for both
values of `LOSSY`. -/
def Obligations.IgnoredCharsAreSkipped : Prop :=
  decode (.char 0x0D) = .instr .eCr ∧
    (∀ s : State, exec .eCr s = .next { s with cur := s.cur + 1 }) ∧
    (∀ c : Byte, c ∉ ([0x09, 0x0A, 0x0D, 0x2B, 0x2C, 0x2D, 0x2E, 0x3C, 0x3E, 0x5B, 0x5D] : List Byte) →
      decode (.char c) = .instr (.eSkip c)) ∧
    (∀ (c : Byte) (s : State), exec (.eSkip c) s = .next { s with cur := s.cur + 1 })

/-- R127: the finalization appends the pending nibble with the pad `0x8` as low nibble if and only if `HALF` is
`AwaitingLow`, whatever `LOSSY` is, and sets the status bits; it is the engine's step when `CUR` is `IN_LEN`. -/
def Obligations.EncodeEndOfInput : Prop :=
  ∀ s : State,
    (s.half = .awaitingHigh → exec .eEos s = .next { s with busy := false, done := true }) ∧
      (s.half = .awaitingLow → exec .eEos s = .next { s with
        acc := 0x00
        half := .awaitingHigh
        outCells := Memory.write s.outCells s.outLen (s.acc ||| 0x08)
        outLen := s.outLen + 1
        busy := false
        done := true }) ∧
      (s.busy = true → s.mode = .encode → s.cur = s.inLen → engineStep s = exec .eEos s)

/-- R111: every character executes the common encode step of `encTok`. -/
def Obligations.EveryCharIsTheCommonStep : Prop :=
  ∀ (c : Byte) (s : State), exec (decodeChar c) s = .next
    (match encTok c s.lossy with
      | some t => afterPlace t c s
      | none => { s with cur := s.cur + 1 })

/-- The frame of the characters and `E_EOS` (42_encoder.md R109, R111, R127): the settings and `IN` are unchanged, and
the status by a character; a byte is stored at `OUT_LEN` and nowhere else, and only where the low half is filled or a
nibble is pending at the end; a skipped character leaves the packer alone. -/
def Obligations.EncodeFrame : Prop :=
  (∀ (c : Byte) (s t : State), exec (decodeChar c) s = .next t →
      SameSettings s t ∧ t.busy = s.busy ∧ t.done = s.done ∧ (∀ i, inByte t i = inByte s i) ∧
        (s.debug = false → t.dbg = s.dbg) ∧
        (match encTok c s.lossy, s.half with
          | some _, .awaitingLow => OutSameBut s.outLen s t
          | some _, .awaitingHigh => t.outLen = s.outLen ∧ OutSame s t
          | none, _ => t.acc = s.acc ∧ t.half = s.half ∧ t.outLen = s.outLen ∧ t.dbg = s.dbg ∧ OutSame s t)) ∧
    (∀ s t : State, exec .eEos s = .next t →
      SameSettings s t ∧ t.cur = s.cur ∧ t.dbg = s.dbg ∧ (∀ i, inByte t i = inByte s i) ∧
        (match s.half with
          | .awaitingLow => OutSameBut s.outLen s t
          | .awaitingHigh => t.acc = s.acc ∧ t.outLen = s.outLen ∧ OutSame s t))

/-! ## Run control and the host -/

/-- `START`, the `CMD8` values with bit 0 = 1, when not busy and with `IN_LEN <= IN_CAP`, makes the seven assignments of
60_exceptions.md R144 and changes nothing else; the engine's next item is then the first of the direction in `CTRL.MODE`,
or the end of input when `IN_LEN = 0`. That the cells of `OUT` are among what is unchanged is the model's choice (log 5;
10_state.md R32: the old contents may or may not survive), and that `START` has an operand, bits 7:1 of the value, is too
(log 13; R144: it has none). The fields that are not the block's are kept by the model's choice (logs 1, 2, 4, 7). -/
def Obligations.StartBeginsARun : Prop :=
  (∀ g : BitVec 7, decode (.cmd (g ++ (1 : BitVec 1))) = .instr (.start g)) ∧
    ∀ (g : BitVec 7) (s : State), s.busy = false → (∀ c, s.inCap = some c → s.inLen ≤ c) →
      ∃ t, exec (.start g) s = .next t ∧ t = { s with
        acc := 0x00
        half := .awaitingHigh
        cur := 0
        outLen := 0
        dbg := []
        done := false
        busy := true } ∧
      fetchItem t = (if s.inLen = 0 then .eos s.mode else
        match s.mode with
        | .encode => .char (inByte s 0)
        | .decode => .tok (hiNibble (inByte s 0)))

/-- What `START` leaves alone: `CTRL`, `IN_LEN` and `IN` (70_reset_and_hazards.md R152, 10_state.md R32). The clause
about the cells of `OUT` is the model's choice (log 5): R152 says only that `START` does not clear them, and R32 that the
old contents may or may not survive. The fields that are not the block's are kept by the model's choice (logs 1, 2, 4,
7). -/
def Obligations.StartFrame : Prop :=
  ∀ (g : BitVec 7) (s t : State), exec (.start g) s = .next t →
    SameSettings s t ∧ (∀ i, inByte t i = inByte s i) ∧ OutSame s t

/-- R137: the host actions without a meaning are refused, each by name: writes of `CTRL`, `IN_LEN` and `IN` and a `START`
while busy; a `START` with `IN_LEN > IN_CAP`; reads of `OUT` and `OUT_LEN` while busy and of `OUT` at or above `OUT_LEN`. -/
def Obligations.HostViolationsAreRefused : Prop :=
  ∀ s : State,
    (s.busy = true →
        (∀ v, hostStep (.writeReg 0 v) s = .refused .hostWriteWhileBusy) ∧
          (∀ v, hostStep (.writeReg 3 v) s = .refused .hostWriteWhileBusy) ∧
          (∀ i v, hostStep (.writeIn i v) s = .refused .hostWriteWhileBusy) ∧
          (∀ g, exec (.start g) s = .refused .startWhileBusy) ∧
          (∀ j, hostStep (.readOut j) s = .refused .hostReadWhileBusy) ∧
          hostStep (.readReg 4) s = .refused .hostReadWhileBusy) ∧
      (s.busy = false →
        (∀ c g, s.inCap = some c → c < s.inLen → exec (.start g) s = .refused .inputLongerThanBuffer) ∧
          (∀ j, s.outLen ≤ j → hostStep (.readOut j) s = .refused .outCellWithoutValue))

/-- R21: a write of `CMD` with bit 0 = 1 is `START`, one with bit 0 = 0 does nothing, whatever bits 7:1 are and whether
or not a run is on; a read gives 0. -/
def Obligations.CommandRegister : Prop :=
  ∀ s : State,
    (∀ v, v < 256 → v % 2 = 1 → ∃ g, hostStep (.writeReg 1 v) s = exec (.start g) s) ∧
      (∀ v, v < 256 → v % 2 = 0 → hostStep (.writeReg 1 v) s = .next s) ∧
      hostStep (.readReg 1) s = .next { s with readData := some (.number 0) }

/-- R16: `CTRL` is written field by field, its reserved bits are ignored and read as 0. -/
def Obligations.ControlRegister : Prop :=
  ∀ s : State,
    hostStep (.readReg 0) s = .next { s with readData := some (.number
        ((if s.mode = .decode then 1 else 0) + (if s.lossy then 2 else 0) + (if s.debug then 4 else 0))) } ∧
      (∀ v, v < 256 → s.busy = false → hostStep (.writeReg 0 v) s = .next { s with
        mode := if v.testBit 0 then .decode else .encode
        lossy := v.testBit 1
        debug := v.testBit 2 }) ∧
      (∀ v : Byte, ctrlWord (writeCtrl v s) = v &&& 0x07)

/-- The other registers of the map (10_state.md R22, R23, R24 and section 3): `STATUS`, `IN_LEN` and `OUT_LEN` read as
they are, writes of `STATUS` and `OUT_LEN` are ignored, a write of `IN_LEN` that fits the register sets it when not busy,
and there is no other register (the fault is the model's, log 8). -/
def Obligations.OtherRegisters : Prop :=
  ∀ s : State,
    hostStep (.readReg 2) s = .next { s with readData := some (.number
        ((if s.busy then 1 else 0) + (if s.done then 2 else 0))) } ∧
      hostStep (.readReg 3) s = .next { s with readData := some (.number s.inLen) } ∧
      (s.busy = false → hostStep (.readReg 4) s = .next { s with readData := some (.number s.outLen) }) ∧
      (∀ v, hostStep (.writeReg 2 v) s = .next s ∧ hostStep (.writeReg 4 v) s = .next s) ∧
      (∀ v, s.busy = false → (∀ c, s.inCap = some c → v ≤ c) →
        hostStep (.writeReg 3 v) s = .next { s with inLen := v }) ∧
      (∀ n v, 4 < n → hostStep (.readReg n) s = .fault (.noSuchRegister n) ∧
        hostStep (.writeReg n v) s = .fault (.noSuchRegister n))

/-- The buffers and the trace as the host sees them when not busy (10_state.md R26, R27, R30, 70_reset_and_hazards.md
R153, R154): a write of an existing cell of `IN` sets that cell and no other, `IN` reads as what its cells hold, `OUT`
below `OUT_LEN` as what was written, `DBG` as its records. -/
def Obligations.HostBuffers : Prop :=
  ∀ s : State, s.busy = false →
    (∀ i v, (∀ c, s.inCap = some c → i < c) → ∃ t, hostStep (.writeIn i v) s = .next t ∧
        (∀ j, inByte t j = if j = i then v else inByte s j) ∧ { t with inCells := s.inCells } = s) ∧
      (∀ i, (∀ c, s.inCap = some c → i < c) →
        hostStep (.readIn i) s = .next { s with readData := some (.number (inByte s i).toNat) }) ∧
      (∀ j v, j < s.outLen → Memory.read s.outCells j = some v →
        hostStep (.readOut j) s = .next { s with readData := some (.number v.toNat) }) ∧
      (∀ k r, s.dbg[k]? = some r → hostStep (.readDbg k) s = .next { s with readData := some (.record r) })

/-- Reads have no side effect (20_memory.md R42): a host read that answers changes nothing but what the host has read,
in every run state. -/
def Obligations.HostReadsHaveNoSideEffect : Prop :=
  ∀ (s t : State) (op : HostOp), (∀ n v, op ≠ .writeReg n v) → (∀ i v, op ≠ .writeIn i v) →
    hostStep op s = .next t → { t with readData := s.readData } = s

/-- R147: a record is appended to `DBG` when `DEBUG = 1`, nothing happens when `DEBUG = 0`, and nothing else changes. -/
def Obligations.TraceRecords : Prop :=
  ∀ (r : TraceRecord) (s : State),
    (s.debug = true → trace r s = { s with dbg := s.dbg ++ [r] }) ∧ (s.debug = false → trace r s = s)

/-- The result stays readable until the next `START` or reset (70_reset_and_hazards.md R154): when not busy, no other
step changes `OUT_LEN`, `OUT`, `DBG` or `STATUS`. -/
def Obligations.ResultStaysReadable : Prop :=
  ∀ s t : State, s.busy = false → step s = .next t → t.busy = false → (∀ r, s.schedule ≠ .reset :: r) →
    t.outLen = s.outLen ∧ t.outCells = s.outCells ∧ t.dbg = s.dbg ∧ t.done = s.done

/-! ## Reset -/

/-- R150: hardware reset, in any run state, gives the registers the values of the rule, and `State.reset` has them; the
engine does nothing on leaving reset. -/
def Obligations.ResetValues : Prop :=
  (∀ t : State, (t = State.reset ∨ ∃ s, t = hardReset s) →
      t.acc = 0x00 ∧ t.half = .awaitingHigh ∧ t.cur = 0 ∧ ctrlWord t = 0x00 ∧ t.mode = .encode ∧ t.lossy = false ∧
        t.debug = false ∧ statusWord t = 0x00 ∧ t.busy = false ∧ t.done = false ∧ t.inLen = 0 ∧ t.outLen = 0 ∧
        t.dbg = [] ∧ engineStep t = .next t) ∧
    step State.reset = .next State.reset

/-- Hardware reset from any state (70_reset_and_hazards.md R150, R152, 60_exceptions.md R145): every register takes its
reset value and the run state is `IDLE`. (That the schedule, the host's data and the capacity are kept is the model's
choice, logs 1, 2, 7, 17.) -/
def Obligations.HardwareResetFromAnyState : Prop :=
  ∀ (s : State) (r : List Slot), s.schedule = .reset :: r → ∃ t, step s = .next t ∧
    t.acc = 0x00 ∧ t.half = .awaitingHigh ∧ t.cur = 0 ∧ ctrlWord t = 0x00 ∧ statusWord t = 0x00 ∧ t.inLen = 0 ∧
    t.outLen = 0 ∧ t.dbg = [] ∧ t.schedule = r ∧ t.inCap = s.inCap ∧ t.readData = s.readData

/-! ## Invariants -/

/-- R13, which the spec derives: the invariant between `ACC` and `HALF` holds after reset, after `START`, and is kept by every step. -/
def Obligations.AccHalfInvariant : Prop :=
  AccHalf State.reset ∧
    (∀ (g : BitVec 7) (s t : State), exec (.start g) s = .next t → AccHalf t) ∧
    (∀ s t : State, AccHalf s → step s = .next t → AccHalf t)

/-- The whole invariant (10_state.md R10, R11, R13, R15, R22, R26, R30, 20_memory.md R44) is kept by every step, from
every state that meets it. -/
def Obligations.InvariantKeptByEveryStep : Prop :=
  ∀ s t : State, Inv s → step s = .next t → Inv t

/-- The state after reset meets the invariant. -/
def Obligations.InvariantAtReset : Prop := Inv State.reset

/-- R20: while busy no step but a hardware reset changes `MODE`, `LOSSY`, `DEBUG` or `IN_LEN`. -/
def Obligations.OptionsAreConstantInARun : Prop :=
  ∀ s t : State, s.busy = true → (∀ r, s.schedule ≠ .reset :: r) → step s = .next t →
    t.mode = s.mode ∧ t.lossy = s.lossy ∧ t.debug = s.debug ∧ t.inLen = s.inLen

/-- No instruction writes `IN` or the settings (10_state.md R27, 20_memory.md R46, R50). -/
def Obligations.NoInstructionWritesTheInput : Prop :=
  ∀ (i : Instr) (s t : State), exec i s = .next t → SameSettings s t ∧ ∀ a, inByte t a = inByte s a

/-- `OUT` is only appended to (10_state.md R28, 20_memory.md R37, R41): an instruction changes at most the cell at
`OUT_LEN`, and `OUT_LEN` grows by 1 exactly when it may have; `START` alone sets it to 0. That the cells of `OUT` are
kept by `START` is the model's choice (log 5; R32: the old contents may or may not survive). -/
def Obligations.OutputIsOnlyAppendedTo : Prop :=
  ∀ (i : Instr) (s t : State), exec i s = .next t →
    OutSameBut s.outLen s t ∧
      ((∃ g, i = .start g) ∧ t.outLen = 0 ∧ t.outCells = s.outCells ∨
        t.outLen = s.outLen ∧ t.outCells = s.outCells ∨
        t.outLen = s.outLen + 1 ∧ ∃ v, t.outCells = Memory.write s.outCells s.outLen v)

/-! ## Whole runs -/

/-- R166: while busy the engine's step is enabled and either increases `CUR` or ends the run; a run always reaches
`DONE`, after exactly the steps that are left, `IN_LEN + 1` (encode) or `2 * IN_LEN + 1` (decode) from its start, and is
still on before that. From every busy state with `CUR` within the input, a multiple of 4 in decode mode. -/
def Obligations.EveryRunReachesDone : Prop :=
  ∀ s : State, s.busy = true → s.schedule = [] → s.cur ≤ endOf s → (s.mode = .decode → s.cur % 4 = 0) →
    (∃ t, step s = .next t ∧ (s.cur < t.cur ∧ t.busy = true ∨ t.busy = false ∧ t.done = true)) ∧
      (∃ t, runSteps (stepsLeft s) s = .next t ∧ t.busy = false ∧ t.done = true ∧ t.cur = endOf s) ∧
      (∀ k, k < stepsLeft s → ∃ u, runSteps k s = .next u ∧ u.busy = true) ∧
      (s.cur = 0 → stepsLeft s = if s.mode = .encode then s.inLen + 1 else 2 * s.inLen + 1)

/-- A decode run (41_decoder.md R86, R108): after `2 * IN_LEN` token steps and the end-of-input step the block is done
and `OUT` holds `decChar` of every token, in stream order. -/
def Obligations.DecodeRunOutput : Prop :=
  ∀ s : State, AtRunStart .decode s → ∃ t, runSteps (2 * s.inLen + 1) s = .next t ∧ t.busy = false ∧ t.done = true ∧
    t.cur = 8 * s.inLen ∧ t.acc = 0x00 ∧ t.half = .awaitingHigh ∧
    resultBytes t = (decodeText s.lossy (inputBytes s)).map some

/-- The properties of decoded texts (41_decoder.md R108): with `LOSSY = 1` one command character a token; with
`LOSSY = 0` at most one character a token, a command, TAB or NL; decoding a concatenation is concatenating decodings. -/
def Obligations.DecodedTextProperties : Prop :=
  ∀ p q : List Byte,
    (decodeText true p).length = 2 * p.length ∧ (∀ c ∈ decodeText true p, c ∈ commandChars) ∧
      (decodeText false p).length ≤ 2 * p.length ∧ (∀ c ∈ decodeText false p, c ∈ roundTripChars) ∧
      ∀ l, decodeText l (p ++ q) = decodeText l p ++ decodeText l q

/-- R132: an encode run emits `ceil(T / 2)` bytes; token `k` lies in byte `k div 2`, in the high nibble if `k` is even;
if `T` is odd one pad token follows. -/
def Obligations.EncodeRunOutput : Prop :=
  ∀ s : State, AtRunStart .encode s → ∃ t, runSteps (s.inLen + 1) s = .next t ∧ t.busy = false ∧ t.done = true ∧
    t.cur = s.inLen ∧ t.acc = 0x00 ∧ t.half = .awaitingHigh ∧
    ∀ T, T = encodeTokens s.lossy (inputBytes s) →
      t.outLen = (T.length + 1) / 2 ∧ (∀ k (h : k < T.length), resultToken t k = some T[k]) ∧
        (T.length % 2 = 1 → resultToken t T.length = some 0x8)

/-- The non-lossy round trip (42_encoder.md R133, fourth property): for every input built from the eight commands, TAB
and NL, encoding it and decoding what the encode run wrote gives it back. -/
def Obligations.NonLossyRoundTrip : Prop :=
  ∀ s : State, AtRunStart .encode s → s.lossy = false → (∀ c ∈ inputBytes s, c ∈ roundTripChars) →
    ∃ t, runSteps (s.inLen + 1) s = .next t ∧
      ∀ u : State, AtRunStart .decode u → u.lossy = false → u.inLen = t.outLen →
        (∀ j, j < t.outLen → Memory.read t.outCells j = some (inByte u j)) →
        ∃ v, runSteps (2 * u.inLen + 1) u = .next v ∧ v.done = true ∧ resultBytes v = (inputBytes s).map some

/-- Lossy encoding strips formatting (42_encoder.md R133, third property): it writes no flagged token but the pad, and
decoding with `LOSSY = 0` what it wrote gives the input without its TABs and NLs. -/
def Obligations.LossyEncodingStripsFormatting : Prop :=
  ∀ s : State, AtRunStart .encode s → s.lossy = true → (∀ c ∈ inputBytes s, c ∈ roundTripChars) →
    ∃ t, runSteps (s.inLen + 1) s = .next t ∧
      (∀ k x, k < 2 * t.outLen → resultToken t k = some x → flagOf x = 1 → x = 0x8 ∧ k + 1 = 2 * t.outLen) ∧
      ∀ u : State, AtRunStart .decode u → u.lossy = false → u.inLen = t.outLen →
        (∀ j, j < t.outLen → Memory.read t.outCells j = some (inByte u j)) →
        ∃ v, runSteps (2 * u.inLen + 1) u = .next v ∧
          resultBytes v = ((inputBytes s).filter (fun c => c ∈ commandChars)).map some

/-- CR and foreign bytes are transparent (42_encoder.md R133, first and second properties): two inputs that agree once
CRs and foreign bytes are removed are encoded alike. -/
def Obligations.IgnoredCharsAreTransparent : Prop :=
  ∀ s t : State, AtRunStart .encode s → AtRunStart .encode t → s.lossy = t.lossy →
    (inputBytes s).filter (fun c => c ∈ roundTripChars) = (inputBytes t).filter (fun c => c ∈ roundTripChars) →
    ∃ s' t', runSteps (s.inLen + 1) s = .next s' ∧ runSteps (t.inLen + 1) t = .next t' ∧
      resultBytes s' = resultBytes t'

/-- The debug trace never affects anything else (10_state.md R19): whatever `DEBUG` and `DBG` are, any number of steps of
the engine gives the same outcome but for them. -/
def Obligations.DebugNeverAffectsTheRun : Prop :=
  ∀ (k : Nat) (s : State) (b : Bool) (d : List TraceRecord), s.schedule = [] →
    outcomeWithoutDebug (runSteps k { s with debug := b, dbg := d }) = outcomeWithoutDebug (runSteps k s)

/-- The result depends on the direction, `LOSSY` and the input alone (70_reset_and_hazards.md R151, R168): two states in
which these are equal, whatever earlier runs left in the rest, give equal results once started. -/
def Obligations.ResultDependsOnlyOnTheInput : Prop :=
  ∀ (g h : BitVec 7) (s t : State), s.busy = false → t.busy = false → s.schedule = [] → t.schedule = [] →
    Config.inFits s.inCap s.inLen = true → Config.inFits t.inCap t.inLen = true →
    s.mode = t.mode → s.lossy = t.lossy → inputBytes s = inputBytes t →
    ∃ s₁ t₁ s₂ t₂, exec (.start g) s = .next s₁ ∧ exec (.start h) t = .next t₁ ∧
      runSteps (stepsLeft s₁) s₁ = .next s₂ ∧ runSteps (stepsLeft t₁) t₁ = .next t₂ ∧
      s₂.done = true ∧ t₂.done = true ∧ resultBytes s₂ = resultBytes t₂
end

