-- ==== Sys2Proof/Laws/Memory.lean ====
section
/-! SUPPORT. Reading after writing, and the canonical form of a memory. -/

namespace Sys2Proof.Laws

open Sys2Proof.Machine

/-- A write changes the cell written and no other. -/
@[simp] theorem read_write (m : Memory) (i : Nat) (v : Byte) (j : Nat) :
    Memory.read (Memory.write m i v) j = if j = i then some v else Memory.read m j := by
  induction m with
  | nil => simp [Memory.write, Memory.read]
  | cons c rest ih =>
    obtain ⟨a, w⟩ := c
    simp only [Memory.write]
    split
    · simp [Memory.read]
    · split
      · rename_i h
        subst h
        by_cases hj : j = i <;> simp [Memory.read, hj]
      · rename_i h
        by_cases hj : j = a
        · subst hj
          simp [Memory.read, Ne.symm h]
        · simp [Memory.read, hj, ih]

/-- The indices a write lists: the one written and those there before. -/
theorem mem_write {m : Memory} {i : Nat} {v : Byte} {c : Nat × Byte} (h : c ∈ Memory.write m i v) :
    c = (i, v) ∨ c ∈ m := by
  induction m with
  | nil => simpa [Memory.write] using h
  | cons d rest ih =>
    obtain ⟨a, w⟩ := d
    simp only [Memory.write] at h
    split at h
    · simpa using h
    · split at h
      · rcases List.mem_cons.1 h with h | h
        · exact .inl h
        · exact .inr (List.mem_cons_of_mem _ h)
      · rcases List.mem_cons.1 h with h | h
        · exact .inr (h ▸ List.mem_cons_self)
        · exact (ih h).imp id (List.mem_cons_of_mem _)

/-- A write keeps the canonical form. -/
theorem write_wf {m : Memory} (h : Memory.wf m) (i : Nat) (v : Byte) : Memory.wf (Memory.write m i v) := by
  induction m with
  | nil => simp [Memory.write, Memory.wf]
  | cons d rest ih =>
    obtain ⟨a, w⟩ := d
    have hr := List.pairwise_cons.1 h
    simp only [Memory.write]
    split
    · rename_i hi
      refine List.pairwise_cons.2 ⟨fun c hc => ?_, h⟩
      rcases List.mem_cons.1 hc with rfl | hc
      · exact hi
      · exact Nat.lt_trans hi (hr.1 c hc)
    · split
      · rename_i hi
        subst hi
        exact List.pairwise_cons.2 ⟨hr.1, hr.2⟩
      · rename_i h1 h2
        refine List.pairwise_cons.2 ⟨fun c hc => ?_, ih hr.2⟩
        rcases mem_write hc with rfl | hc
        · show a < i
          omega
        · exact hr.1 c hc

/-- Overlaying keeps the canonical form. -/
theorem overlay_wf {m : Memory} (h : Memory.wf m) (n : Memory) : Memory.wf (Memory.overlay m n) := by
  induction n generalizing m with
  | nil => exact h
  | cons c rest ih => exact ih (write_wf h c.1 c.2)

/-- The memories of the state after reset are in canonical form. -/
theorem reset_memories_wf :
    Memory.wf State.reset.inCells ∧ Memory.wf State.reset.outCells ∧ Memory.wf State.reset.inBefore := by decide

end Sys2Proof.Laws
end

