-- ==== Sys2Proof/Laws/State.lean ====
section
/-! SUPPORT. One lemma per field for every update of State, so that no proof unfolds a record update. -/

namespace Sys2Proof.Laws

open Sys2Proof.Machine

/-! ## advance -/

@[simp] theorem advance_acc (n : Nat) (s : State) : (advance n s).acc = s.acc := rfl
@[simp] theorem advance_half (n : Nat) (s : State) : (advance n s).half = s.half := rfl
@[simp] theorem advance_cur (n : Nat) (s : State) : (advance n s).cur = s.cur + n := rfl
@[simp] theorem advance_mode (n : Nat) (s : State) : (advance n s).mode = s.mode := rfl
@[simp] theorem advance_lossy (n : Nat) (s : State) : (advance n s).lossy = s.lossy := rfl
@[simp] theorem advance_debug (n : Nat) (s : State) : (advance n s).debug = s.debug := rfl
@[simp] theorem advance_busy (n : Nat) (s : State) : (advance n s).busy = s.busy := rfl
@[simp] theorem advance_done (n : Nat) (s : State) : (advance n s).done = s.done := rfl
@[simp] theorem advance_inLen (n : Nat) (s : State) : (advance n s).inLen = s.inLen := rfl
@[simp] theorem advance_outLen (n : Nat) (s : State) : (advance n s).outLen = s.outLen := rfl
@[simp] theorem advance_inCells (n : Nat) (s : State) : (advance n s).inCells = s.inCells := rfl
@[simp] theorem advance_outCells (n : Nat) (s : State) : (advance n s).outCells = s.outCells := rfl
@[simp] theorem advance_dbg (n : Nat) (s : State) : (advance n s).dbg = s.dbg := rfl
@[simp] theorem advance_inCap (n : Nat) (s : State) : (advance n s).inCap = s.inCap := rfl
@[simp] theorem advance_resets (n : Nat) (s : State) : (advance n s).resets = s.resets := rfl
@[simp] theorem advance_inBefore (n : Nat) (s : State) : (advance n s).inBefore = s.inBefore := rfl
@[simp] theorem advance_schedule (n : Nat) (s : State) : (advance n s).schedule = s.schedule := rfl
@[simp] theorem advance_readData (n : Nat) (s : State) : (advance n s).readData = s.readData := rfl

/-! ## emit -/

@[simp] theorem emit_acc (v : Byte) (s : State) : (emit v s).acc = s.acc := rfl
@[simp] theorem emit_half (v : Byte) (s : State) : (emit v s).half = s.half := rfl
@[simp] theorem emit_cur (v : Byte) (s : State) : (emit v s).cur = s.cur := rfl
@[simp] theorem emit_mode (v : Byte) (s : State) : (emit v s).mode = s.mode := rfl
@[simp] theorem emit_lossy (v : Byte) (s : State) : (emit v s).lossy = s.lossy := rfl
@[simp] theorem emit_debug (v : Byte) (s : State) : (emit v s).debug = s.debug := rfl
@[simp] theorem emit_busy (v : Byte) (s : State) : (emit v s).busy = s.busy := rfl
@[simp] theorem emit_done (v : Byte) (s : State) : (emit v s).done = s.done := rfl
@[simp] theorem emit_inLen (v : Byte) (s : State) : (emit v s).inLen = s.inLen := rfl
@[simp] theorem emit_outLen (v : Byte) (s : State) : (emit v s).outLen = s.outLen + 1 := rfl
@[simp] theorem emit_inCells (v : Byte) (s : State) : (emit v s).inCells = s.inCells := rfl
@[simp] theorem emit_outCells (v : Byte) (s : State) : (emit v s).outCells = Memory.write s.outCells s.outLen v := rfl
@[simp] theorem emit_dbg (v : Byte) (s : State) : (emit v s).dbg = s.dbg := rfl
@[simp] theorem emit_inCap (v : Byte) (s : State) : (emit v s).inCap = s.inCap := rfl
@[simp] theorem emit_resets (v : Byte) (s : State) : (emit v s).resets = s.resets := rfl
@[simp] theorem emit_inBefore (v : Byte) (s : State) : (emit v s).inBefore = s.inBefore := rfl
@[simp] theorem emit_schedule (v : Byte) (s : State) : (emit v s).schedule = s.schedule := rfl
@[simp] theorem emit_readData (v : Byte) (s : State) : (emit v s).readData = s.readData := rfl

/-! ## trace -/

@[simp] theorem trace_acc (r : TraceRecord) (s : State) : (trace r s).acc = s.acc := rfl
@[simp] theorem trace_half (r : TraceRecord) (s : State) : (trace r s).half = s.half := rfl
@[simp] theorem trace_cur (r : TraceRecord) (s : State) : (trace r s).cur = s.cur := rfl
@[simp] theorem trace_mode (r : TraceRecord) (s : State) : (trace r s).mode = s.mode := rfl
@[simp] theorem trace_lossy (r : TraceRecord) (s : State) : (trace r s).lossy = s.lossy := rfl
@[simp] theorem trace_debug (r : TraceRecord) (s : State) : (trace r s).debug = s.debug := rfl
@[simp] theorem trace_busy (r : TraceRecord) (s : State) : (trace r s).busy = s.busy := rfl
@[simp] theorem trace_done (r : TraceRecord) (s : State) : (trace r s).done = s.done := rfl
@[simp] theorem trace_inLen (r : TraceRecord) (s : State) : (trace r s).inLen = s.inLen := rfl
@[simp] theorem trace_outLen (r : TraceRecord) (s : State) : (trace r s).outLen = s.outLen := rfl
@[simp] theorem trace_inCells (r : TraceRecord) (s : State) : (trace r s).inCells = s.inCells := rfl
@[simp] theorem trace_outCells (r : TraceRecord) (s : State) : (trace r s).outCells = s.outCells := rfl
@[simp] theorem trace_dbg (r : TraceRecord) (s : State) : (trace r s).dbg = if s.debug then s.dbg ++ [r] else s.dbg := rfl
@[simp] theorem trace_inCap (r : TraceRecord) (s : State) : (trace r s).inCap = s.inCap := rfl
@[simp] theorem trace_resets (r : TraceRecord) (s : State) : (trace r s).resets = s.resets := rfl
@[simp] theorem trace_inBefore (r : TraceRecord) (s : State) : (trace r s).inBefore = s.inBefore := rfl
@[simp] theorem trace_schedule (r : TraceRecord) (s : State) : (trace r s).schedule = s.schedule := rfl
@[simp] theorem trace_readData (r : TraceRecord) (s : State) : (trace r s).readData = s.readData := rfl

/-! ## appendChar -/

@[simp] theorem appendChar_acc (ch : Byte) (s : State) : (appendChar ch s).acc = s.acc := rfl
@[simp] theorem appendChar_half (ch : Byte) (s : State) : (appendChar ch s).half = s.half := rfl
@[simp] theorem appendChar_cur (ch : Byte) (s : State) : (appendChar ch s).cur = s.cur := rfl
@[simp] theorem appendChar_mode (ch : Byte) (s : State) : (appendChar ch s).mode = s.mode := rfl
@[simp] theorem appendChar_lossy (ch : Byte) (s : State) : (appendChar ch s).lossy = s.lossy := rfl
@[simp] theorem appendChar_debug (ch : Byte) (s : State) : (appendChar ch s).debug = s.debug := rfl
@[simp] theorem appendChar_busy (ch : Byte) (s : State) : (appendChar ch s).busy = s.busy := rfl
@[simp] theorem appendChar_done (ch : Byte) (s : State) : (appendChar ch s).done = s.done := rfl
@[simp] theorem appendChar_inLen (ch : Byte) (s : State) : (appendChar ch s).inLen = s.inLen := rfl
@[simp] theorem appendChar_outLen (ch : Byte) (s : State) : (appendChar ch s).outLen = s.outLen + 1 := rfl
@[simp] theorem appendChar_inCells (ch : Byte) (s : State) : (appendChar ch s).inCells = s.inCells := rfl
@[simp] theorem appendChar_outCells (ch : Byte) (s : State) : (appendChar ch s).outCells = Memory.write s.outCells s.outLen ch := rfl
@[simp] theorem appendChar_dbg (ch : Byte) (s : State) : (appendChar ch s).dbg = if s.debug then s.dbg ++ [.decoded ch] else s.dbg := rfl
@[simp] theorem appendChar_inCap (ch : Byte) (s : State) : (appendChar ch s).inCap = s.inCap := rfl
@[simp] theorem appendChar_resets (ch : Byte) (s : State) : (appendChar ch s).resets = s.resets := rfl
@[simp] theorem appendChar_inBefore (ch : Byte) (s : State) : (appendChar ch s).inBefore = s.inBefore := rfl
@[simp] theorem appendChar_schedule (ch : Byte) (s : State) : (appendChar ch s).schedule = s.schedule := rfl
@[simp] theorem appendChar_readData (ch : Byte) (s : State) : (appendChar ch s).readData = s.readData := rfl

/-! ## flush -/

@[simp] theorem flush_acc (s : State) : (flush s).acc = 0x00 := rfl
@[simp] theorem flush_half (s : State) : (flush s).half = s.half := rfl
@[simp] theorem flush_cur (s : State) : (flush s).cur = s.cur := rfl
@[simp] theorem flush_mode (s : State) : (flush s).mode = s.mode := rfl
@[simp] theorem flush_lossy (s : State) : (flush s).lossy = s.lossy := rfl
@[simp] theorem flush_debug (s : State) : (flush s).debug = s.debug := rfl
@[simp] theorem flush_busy (s : State) : (flush s).busy = s.busy := rfl
@[simp] theorem flush_done (s : State) : (flush s).done = s.done := rfl
@[simp] theorem flush_inLen (s : State) : (flush s).inLen = s.inLen := rfl
@[simp] theorem flush_outLen (s : State) : (flush s).outLen = s.outLen + 1 := rfl
@[simp] theorem flush_inCells (s : State) : (flush s).inCells = s.inCells := rfl
@[simp] theorem flush_outCells (s : State) : (flush s).outCells = Memory.write s.outCells s.outLen s.acc := rfl
@[simp] theorem flush_dbg (s : State) : (flush s).dbg = s.dbg := rfl
@[simp] theorem flush_inCap (s : State) : (flush s).inCap = s.inCap := rfl
@[simp] theorem flush_resets (s : State) : (flush s).resets = s.resets := rfl
@[simp] theorem flush_inBefore (s : State) : (flush s).inBefore = s.inBefore := rfl
@[simp] theorem flush_schedule (s : State) : (flush s).schedule = s.schedule := rfl
@[simp] theorem flush_readData (s : State) : (flush s).readData = s.readData := rfl

/-! ## finishRun -/

@[simp] theorem finishRun_acc (s : State) : (finishRun s).acc = s.acc := rfl
@[simp] theorem finishRun_half (s : State) : (finishRun s).half = s.half := rfl
@[simp] theorem finishRun_cur (s : State) : (finishRun s).cur = s.cur := rfl
@[simp] theorem finishRun_mode (s : State) : (finishRun s).mode = s.mode := rfl
@[simp] theorem finishRun_lossy (s : State) : (finishRun s).lossy = s.lossy := rfl
@[simp] theorem finishRun_debug (s : State) : (finishRun s).debug = s.debug := rfl
@[simp] theorem finishRun_busy (s : State) : (finishRun s).busy = false := rfl
@[simp] theorem finishRun_done (s : State) : (finishRun s).done = true := rfl
@[simp] theorem finishRun_inLen (s : State) : (finishRun s).inLen = s.inLen := rfl
@[simp] theorem finishRun_outLen (s : State) : (finishRun s).outLen = s.outLen := rfl
@[simp] theorem finishRun_inCells (s : State) : (finishRun s).inCells = s.inCells := rfl
@[simp] theorem finishRun_outCells (s : State) : (finishRun s).outCells = s.outCells := rfl
@[simp] theorem finishRun_dbg (s : State) : (finishRun s).dbg = s.dbg := rfl
@[simp] theorem finishRun_inCap (s : State) : (finishRun s).inCap = s.inCap := rfl
@[simp] theorem finishRun_resets (s : State) : (finishRun s).resets = s.resets := rfl
@[simp] theorem finishRun_inBefore (s : State) : (finishRun s).inBefore = s.inBefore := rfl
@[simp] theorem finishRun_schedule (s : State) : (finishRun s).schedule = s.schedule := rfl
@[simp] theorem finishRun_readData (s : State) : (finishRun s).readData = s.readData := rfl

/-! ## beginRun -/

@[simp] theorem beginRun_acc (s : State) : (beginRun s).acc = 0x00 := rfl
@[simp] theorem beginRun_half (s : State) : (beginRun s).half = .awaitingHigh := rfl
@[simp] theorem beginRun_cur (s : State) : (beginRun s).cur = 0 := rfl
@[simp] theorem beginRun_mode (s : State) : (beginRun s).mode = s.mode := rfl
@[simp] theorem beginRun_lossy (s : State) : (beginRun s).lossy = s.lossy := rfl
@[simp] theorem beginRun_debug (s : State) : (beginRun s).debug = s.debug := rfl
@[simp] theorem beginRun_busy (s : State) : (beginRun s).busy = true := rfl
@[simp] theorem beginRun_done (s : State) : (beginRun s).done = false := rfl
@[simp] theorem beginRun_inLen (s : State) : (beginRun s).inLen = s.inLen := rfl
@[simp] theorem beginRun_outLen (s : State) : (beginRun s).outLen = 0 := rfl
@[simp] theorem beginRun_inCells (s : State) : (beginRun s).inCells = s.inCells := rfl
@[simp] theorem beginRun_outCells (s : State) : (beginRun s).outCells = s.outCells := rfl
@[simp] theorem beginRun_dbg (s : State) : (beginRun s).dbg = [] := rfl
@[simp] theorem beginRun_inCap (s : State) : (beginRun s).inCap = s.inCap := rfl
@[simp] theorem beginRun_resets (s : State) : (beginRun s).resets = s.resets := rfl
@[simp] theorem beginRun_inBefore (s : State) : (beginRun s).inBefore = s.inBefore := rfl
@[simp] theorem beginRun_schedule (s : State) : (beginRun s).schedule = s.schedule := rfl
@[simp] theorem beginRun_readData (s : State) : (beginRun s).readData = s.readData := rfl

/-! ## writeCtrl -/

@[simp] theorem writeCtrl_acc (v : Byte) (s : State) : (writeCtrl v s).acc = s.acc := rfl
@[simp] theorem writeCtrl_half (v : Byte) (s : State) : (writeCtrl v s).half = s.half := rfl
@[simp] theorem writeCtrl_cur (v : Byte) (s : State) : (writeCtrl v s).cur = s.cur := rfl
@[simp] theorem writeCtrl_mode (v : Byte) (s : State) : (writeCtrl v s).mode = if v.getLsbD 0 then .decode else .encode := rfl
@[simp] theorem writeCtrl_lossy (v : Byte) (s : State) : (writeCtrl v s).lossy = v.getLsbD 1 := rfl
@[simp] theorem writeCtrl_debug (v : Byte) (s : State) : (writeCtrl v s).debug = v.getLsbD 2 := rfl
@[simp] theorem writeCtrl_busy (v : Byte) (s : State) : (writeCtrl v s).busy = s.busy := rfl
@[simp] theorem writeCtrl_done (v : Byte) (s : State) : (writeCtrl v s).done = s.done := rfl
@[simp] theorem writeCtrl_inLen (v : Byte) (s : State) : (writeCtrl v s).inLen = s.inLen := rfl
@[simp] theorem writeCtrl_outLen (v : Byte) (s : State) : (writeCtrl v s).outLen = s.outLen := rfl
@[simp] theorem writeCtrl_inCells (v : Byte) (s : State) : (writeCtrl v s).inCells = s.inCells := rfl
@[simp] theorem writeCtrl_outCells (v : Byte) (s : State) : (writeCtrl v s).outCells = s.outCells := rfl
@[simp] theorem writeCtrl_dbg (v : Byte) (s : State) : (writeCtrl v s).dbg = s.dbg := rfl
@[simp] theorem writeCtrl_inCap (v : Byte) (s : State) : (writeCtrl v s).inCap = s.inCap := rfl
@[simp] theorem writeCtrl_resets (v : Byte) (s : State) : (writeCtrl v s).resets = s.resets := rfl
@[simp] theorem writeCtrl_inBefore (v : Byte) (s : State) : (writeCtrl v s).inBefore = s.inBefore := rfl
@[simp] theorem writeCtrl_schedule (v : Byte) (s : State) : (writeCtrl v s).schedule = s.schedule := rfl
@[simp] theorem writeCtrl_readData (v : Byte) (s : State) : (writeCtrl v s).readData = s.readData := rfl

/-! ## returnToHost -/

@[simp] theorem returnToHost_acc (v : HostValue) (s : State) : (returnToHost v s).acc = s.acc := rfl
@[simp] theorem returnToHost_half (v : HostValue) (s : State) : (returnToHost v s).half = s.half := rfl
@[simp] theorem returnToHost_cur (v : HostValue) (s : State) : (returnToHost v s).cur = s.cur := rfl
@[simp] theorem returnToHost_mode (v : HostValue) (s : State) : (returnToHost v s).mode = s.mode := rfl
@[simp] theorem returnToHost_lossy (v : HostValue) (s : State) : (returnToHost v s).lossy = s.lossy := rfl
@[simp] theorem returnToHost_debug (v : HostValue) (s : State) : (returnToHost v s).debug = s.debug := rfl
@[simp] theorem returnToHost_busy (v : HostValue) (s : State) : (returnToHost v s).busy = s.busy := rfl
@[simp] theorem returnToHost_done (v : HostValue) (s : State) : (returnToHost v s).done = s.done := rfl
@[simp] theorem returnToHost_inLen (v : HostValue) (s : State) : (returnToHost v s).inLen = s.inLen := rfl
@[simp] theorem returnToHost_outLen (v : HostValue) (s : State) : (returnToHost v s).outLen = s.outLen := rfl
@[simp] theorem returnToHost_inCells (v : HostValue) (s : State) : (returnToHost v s).inCells = s.inCells := rfl
@[simp] theorem returnToHost_outCells (v : HostValue) (s : State) : (returnToHost v s).outCells = s.outCells := rfl
@[simp] theorem returnToHost_dbg (v : HostValue) (s : State) : (returnToHost v s).dbg = s.dbg := rfl
@[simp] theorem returnToHost_inCap (v : HostValue) (s : State) : (returnToHost v s).inCap = s.inCap := rfl
@[simp] theorem returnToHost_resets (v : HostValue) (s : State) : (returnToHost v s).resets = s.resets := rfl
@[simp] theorem returnToHost_inBefore (v : HostValue) (s : State) : (returnToHost v s).inBefore = s.inBefore := rfl
@[simp] theorem returnToHost_schedule (v : HostValue) (s : State) : (returnToHost v s).schedule = s.schedule := rfl
@[simp] theorem returnToHost_readData (v : HostValue) (s : State) : (returnToHost v s).readData = some v := rfl

/-! ## hardReset -/

@[simp] theorem hardReset_acc (s : State) : (hardReset s).acc = 0x00 := rfl
@[simp] theorem hardReset_half (s : State) : (hardReset s).half = .awaitingHigh := rfl
@[simp] theorem hardReset_cur (s : State) : (hardReset s).cur = 0 := rfl
@[simp] theorem hardReset_mode (s : State) : (hardReset s).mode = .encode := rfl
@[simp] theorem hardReset_lossy (s : State) : (hardReset s).lossy = false := rfl
@[simp] theorem hardReset_debug (s : State) : (hardReset s).debug = false := rfl
@[simp] theorem hardReset_busy (s : State) : (hardReset s).busy = false := rfl
@[simp] theorem hardReset_done (s : State) : (hardReset s).done = false := rfl
@[simp] theorem hardReset_inLen (s : State) : (hardReset s).inLen = 0 := rfl
@[simp] theorem hardReset_outLen (s : State) : (hardReset s).outLen = 0 := rfl
@[simp] theorem hardReset_inCells (s : State) : (hardReset s).inCells = [] := rfl
@[simp] theorem hardReset_outCells (s : State) : (hardReset s).outCells = [] := rfl
@[simp] theorem hardReset_dbg (s : State) : (hardReset s).dbg = [] := rfl
@[simp] theorem hardReset_inCap (s : State) : (hardReset s).inCap = s.inCap := rfl
@[simp] theorem hardReset_resets (s : State) : (hardReset s).resets = s.resets + 1 := rfl
@[simp] theorem hardReset_inBefore (s : State) : (hardReset s).inBefore = Memory.overlay s.inBefore s.inCells := rfl
@[simp] theorem hardReset_schedule (s : State) : (hardReset s).schedule = s.schedule := rfl
@[simp] theorem hardReset_readData (s : State) : (hardReset s).readData = s.readData := rfl

/-! ## The updates that look at `HALF`: what they leave alone -/

@[simp] theorem fillHalf_cur (t : Token) (s : State) : (fillHalf t s).cur = s.cur := by
  unfold fillHalf; split <;> rfl
@[simp] theorem fillHalf_mode (t : Token) (s : State) : (fillHalf t s).mode = s.mode := by
  unfold fillHalf; split <;> rfl
@[simp] theorem fillHalf_lossy (t : Token) (s : State) : (fillHalf t s).lossy = s.lossy := by
  unfold fillHalf; split <;> rfl
@[simp] theorem fillHalf_debug (t : Token) (s : State) : (fillHalf t s).debug = s.debug := by
  unfold fillHalf; split <;> rfl
@[simp] theorem fillHalf_busy (t : Token) (s : State) : (fillHalf t s).busy = s.busy := by
  unfold fillHalf; split <;> rfl
@[simp] theorem fillHalf_done (t : Token) (s : State) : (fillHalf t s).done = s.done := by
  unfold fillHalf; split <;> rfl
@[simp] theorem fillHalf_inLen (t : Token) (s : State) : (fillHalf t s).inLen = s.inLen := by
  unfold fillHalf; split <;> rfl
@[simp] theorem fillHalf_outLen (t : Token) (s : State) : (fillHalf t s).outLen = s.outLen := by
  unfold fillHalf; split <;> rfl
@[simp] theorem fillHalf_inCells (t : Token) (s : State) : (fillHalf t s).inCells = s.inCells := by
  unfold fillHalf; split <;> rfl
@[simp] theorem fillHalf_outCells (t : Token) (s : State) : (fillHalf t s).outCells = s.outCells := by
  unfold fillHalf; split <;> rfl
@[simp] theorem fillHalf_dbg (t : Token) (s : State) : (fillHalf t s).dbg = s.dbg := by
  unfold fillHalf; split <;> rfl
@[simp] theorem fillHalf_inCap (t : Token) (s : State) : (fillHalf t s).inCap = s.inCap := by
  unfold fillHalf; split <;> rfl
@[simp] theorem fillHalf_resets (t : Token) (s : State) : (fillHalf t s).resets = s.resets := by
  unfold fillHalf; split <;> rfl
@[simp] theorem fillHalf_inBefore (t : Token) (s : State) : (fillHalf t s).inBefore = s.inBefore := by
  unfold fillHalf; split <;> rfl
@[simp] theorem fillHalf_schedule (t : Token) (s : State) : (fillHalf t s).schedule = s.schedule := by
  unfold fillHalf; split <;> rfl
@[simp] theorem fillHalf_readData (t : Token) (s : State) : (fillHalf t s).readData = s.readData := by
  unfold fillHalf; split <;> rfl

@[simp] theorem place_cur (t : Token) (c : Byte) (s : State) : (place t c s).cur = s.cur := by
  unfold place; split <;> simp
@[simp] theorem place_mode (t : Token) (c : Byte) (s : State) : (place t c s).mode = s.mode := by
  unfold place; split <;> simp
@[simp] theorem place_lossy (t : Token) (c : Byte) (s : State) : (place t c s).lossy = s.lossy := by
  unfold place; split <;> simp
@[simp] theorem place_debug (t : Token) (c : Byte) (s : State) : (place t c s).debug = s.debug := by
  unfold place; split <;> simp
@[simp] theorem place_busy (t : Token) (c : Byte) (s : State) : (place t c s).busy = s.busy := by
  unfold place; split <;> simp
@[simp] theorem place_done (t : Token) (c : Byte) (s : State) : (place t c s).done = s.done := by
  unfold place; split <;> simp
@[simp] theorem place_inLen (t : Token) (c : Byte) (s : State) : (place t c s).inLen = s.inLen := by
  unfold place; split <;> simp
@[simp] theorem place_inCells (t : Token) (c : Byte) (s : State) : (place t c s).inCells = s.inCells := by
  unfold place; split <;> simp
@[simp] theorem place_inCap (t : Token) (c : Byte) (s : State) : (place t c s).inCap = s.inCap := by
  unfold place; split <;> simp
@[simp] theorem place_resets (t : Token) (c : Byte) (s : State) : (place t c s).resets = s.resets := by
  unfold place; split <;> simp
@[simp] theorem place_inBefore (t : Token) (c : Byte) (s : State) : (place t c s).inBefore = s.inBefore := by
  unfold place; split <;> simp
@[simp] theorem place_schedule (t : Token) (c : Byte) (s : State) : (place t c s).schedule = s.schedule := by
  unfold place; split <;> simp
@[simp] theorem place_readData (t : Token) (c : Byte) (s : State) : (place t c s).readData = s.readData := by
  unfold place; split <;> simp

@[simp] theorem padLastByte_cur (s : State) : (padLastByte s).cur = s.cur := by
  unfold padLastByte; split <;> rfl
@[simp] theorem padLastByte_mode (s : State) : (padLastByte s).mode = s.mode := by
  unfold padLastByte; split <;> rfl
@[simp] theorem padLastByte_lossy (s : State) : (padLastByte s).lossy = s.lossy := by
  unfold padLastByte; split <;> rfl
@[simp] theorem padLastByte_debug (s : State) : (padLastByte s).debug = s.debug := by
  unfold padLastByte; split <;> rfl
@[simp] theorem padLastByte_busy (s : State) : (padLastByte s).busy = s.busy := by
  unfold padLastByte; split <;> rfl
@[simp] theorem padLastByte_done (s : State) : (padLastByte s).done = s.done := by
  unfold padLastByte; split <;> rfl
@[simp] theorem padLastByte_inLen (s : State) : (padLastByte s).inLen = s.inLen := by
  unfold padLastByte; split <;> rfl
@[simp] theorem padLastByte_inCells (s : State) : (padLastByte s).inCells = s.inCells := by
  unfold padLastByte; split <;> rfl
@[simp] theorem padLastByte_dbg (s : State) : (padLastByte s).dbg = s.dbg := by
  unfold padLastByte; split <;> rfl
@[simp] theorem padLastByte_inCap (s : State) : (padLastByte s).inCap = s.inCap := by
  unfold padLastByte; split <;> rfl
@[simp] theorem padLastByte_resets (s : State) : (padLastByte s).resets = s.resets := by
  unfold padLastByte; split <;> rfl
@[simp] theorem padLastByte_inBefore (s : State) : (padLastByte s).inBefore = s.inBefore := by
  unfold padLastByte; split <;> rfl
@[simp] theorem padLastByte_schedule (s : State) : (padLastByte s).schedule = s.schedule := by
  unfold padLastByte; split <;> rfl
@[simp] theorem padLastByte_readData (s : State) : (padLastByte s).readData = s.readData := by
  unfold padLastByte; split <;> rfl

end Sys2Proof.Laws
end

