-- ==== Sys2Proof/Laws/Ops.lean ====
section
/-! SUPPORT. What each shared operation can do, said once: the packer, the fetch, the instructions, the host's actions
and the step. -/

namespace Sys2Proof.Laws

open Sys2Proof.Machine

/-! ## The packer -/

theorem place_awaitingHigh {t : Token} {c : Byte} {s : State} (h : s.half = .awaitingHigh) :
    place t c s = trace (placedRecord c false (fillHalf t s)) (fillHalf t s) := by simp only [place, h]

theorem place_awaitingLow {t : Token} {c : Byte} {s : State} (h : s.half = .awaitingLow) :
    place t c s = flush (trace (placedRecord c true (fillHalf t s)) (fillHalf t s)) := by simp only [place, h]

theorem fillHalf_awaitingHigh {t : Token} {s : State} (h : s.half = .awaitingHigh) :
    fillHalf t s = { s with acc := t.setWidth 8 <<< 4, half := .awaitingLow } := by simp [fillHalf, flipHalf, h]

theorem fillHalf_awaitingLow {t : Token} {s : State} (h : s.half = .awaitingLow) :
    fillHalf t s = { s with acc := s.acc ||| t.setWidth 8, half := .awaitingHigh } := by simp [fillHalf, flipHalf, h]

theorem padLastByte_awaitingHigh {s : State} (h : s.half = .awaitingHigh) : padLastByte s = s := by
  simp only [padLastByte, h]

theorem padLastByte_awaitingLow {s : State} (h : s.half = .awaitingLow) :
    padLastByte s = { emit (s.acc ||| 0x08) s with acc := 0x00, half := .awaitingHigh } := by
  simp only [padLastByte, h]
  rfl

/-! ## The fetch -/

/-- The engine's item always decodes to an instruction. -/
theorem decode_fetchItem (s : State) : decode (fetchItem s) = .instr (fetchInstr s) := by
  unfold fetchItem fetchInstr
  split
  · cases s.mode <;> rfl
  · rfl

/-- No token is `START`. -/
theorem decodeTok_ne_start (t : Token) (g : BitVec 7) : decodeTok t ≠ .start g := by
  revert t g
  decide

/-- No character is `START`. -/
theorem decodeChar_ne_start (c : Byte) (g : BitVec 7) : decodeChar c ≠ .start g := by
  unfold decodeChar
  repeat' split
  all_goals simp

/-- The engine never fetches `START`. -/
theorem fetchInstr_ne_start (s : State) (g : BitVec 7) : fetchInstr s ≠ .start g := by
  unfold fetchInstr
  split
  · split
    · exact decodeChar_ne_start _ g
    · exact decodeTok_ne_start _ g
  · cases s.mode <;> simp [decodeEos]

/-! ## The instructions -/

/-- Everything an instruction can do when it answers a next state. -/
theorem exec_next {i : Instr} {s t : State} (h : exec i s = .next t) :
    (∃ ch, t = advance 4 (appendChar ch s)) ∨ t = advance 4 s ∨ (∃ tok c, t = advance 1 (place tok c s)) ∨
      t = advance 1 s ∨ t = finishRun s ∨ t = finishRun (padLastByte s) ∨
      (s.busy = false ∧ Config.inFits s.inCap s.inLen = true ∧ t = beginRun s) := by
  cases i
  case dCmd0 | dCmd1 | dCmd2 | dCmd3 | dCmd4 | dCmd5 | dCmd6 | dCmd7 | dTab | dNl =>
    cases h
    exact .inl ⟨_, rfl⟩
  case dPad | dNop3 | dNop4 | dNop5 | dNop6 | dNop7 =>
    cases h
    split
    · exact .inl ⟨_, rfl⟩
    · exact .inr (.inl rfl)
  case dEos =>
    cases h
    simp
  case eCmd0 | eCmd1 | eCmd2 | eCmd3 | eCmd4 | eCmd5 | eCmd6 | eCmd7 =>
    cases h
    exact .inr (.inr (.inl ⟨_, _, rfl⟩))
  case eTab | eNl =>
    cases h
    split
    · exact .inr (.inr (.inr (.inl rfl)))
    · exact .inr (.inr (.inl ⟨_, _, rfl⟩))
  case eCr | eSkip =>
    cases h
    exact .inr (.inr (.inr (.inl rfl)))
  case eEos =>
    cases h
    simp
  case start g =>
    simp only [exec, execStart] at h
    split at h
    · cases h
    · rename_i hb
      split at h
      · rename_i hf
        cases h
        exact .inr (.inr (.inr (.inr (.inr (.inr ⟨by simpa using hb, hf, rfl⟩)))))
      · cases h

/-! ## The agents -/

/-- What a host write of `CMD` can do. -/
theorem hostWriteCmd_next {v : Nat} {s t : State} (h : hostWriteCmd v s = .next t) :
    t = s ∨ (s.busy = false ∧ Config.inFits s.inCap s.inLen = true ∧ t = beginRun s) := by
  simp only [hostWriteCmd, decode, decodeCmd] at h
  split at h
  · split at h
    · rename_i i hi
      split at hi
      · cases hi
        simp only [exec, execStart] at h
        split at h
        · cases h
        · rename_i hb
          split at h
          · rename_i hf
            cases h
            exact .inr ⟨by simpa using hb, hf, rfl⟩
          · cases h
      · cases hi
    · cases h
      exact .inl rfl
  · cases h

/-- Everything an action of the host can do when it answers a next state. -/
theorem hostStep_next {op : HostOp} {s t : State} (h : hostStep op s = .next t) :
    t = s ∨ (∃ v, t = returnToHost v s) ∨
      (s.busy = false ∧
        ((∃ v, t = writeCtrl v s) ∨ (∃ v, t = { s with inLen := v }) ∨
          (∃ i v, Config.inHasCell s.inCap i = true ∧ t = { s with inCells := Memory.write s.inCells i v }) ∨
          (Config.inFits s.inCap s.inLen = true ∧ t = beginRun s))) := by
  cases op with
  | readReg n =>
    simp only [hostStep, hostReadReg] at h
    split at h
    case h_5 =>
      split at h
      · cases h
      · cases h
        exact .inr (.inl ⟨_, rfl⟩)
    case h_6 => cases h
    all_goals
      cases h
      exact .inr (.inl ⟨_, rfl⟩)
  | writeReg n v =>
    simp only [hostStep, hostWriteReg] at h
    split at h
    · simp only [hostWriteCtrl] at h
      split at h
      · cases h
      · rename_i hb
        split at h
        · cases h
          exact .inr (.inr ⟨by simpa using hb, .inl ⟨_, rfl⟩⟩)
        · cases h
    · rcases hostWriteCmd_next h with rfl | ⟨hb, hf, rfl⟩
      · exact .inl rfl
      · exact .inr (.inr ⟨hb, .inr (.inr (.inr ⟨hf, rfl⟩))⟩)
    · cases h
      exact .inl rfl
    · simp only [hostWriteInLen] at h
      split at h
      · cases h
      · rename_i hb
        split at h
        · cases h
          exact .inr (.inr ⟨by simpa using hb, .inr (.inl ⟨_, rfl⟩)⟩)
        · cases h
    · cases h
      exact .inl rfl
    · cases h
  | writeIn i v =>
    simp only [hostStep, hostWriteIn] at h
    split at h
    · cases h
    · rename_i hb
      split at h
      · rename_i hc
        cases h
        exact .inr (.inr ⟨by simpa using hb, .inr (.inr (.inl ⟨i, v, hc, rfl⟩))⟩)
      · cases h
  | readIn i =>
    simp only [hostStep, hostReadIn] at h
    split at h
    · cases h
    · split at h
      · cases h
        exact .inr (.inl ⟨_, rfl⟩)
      · cases h
  | readOut j =>
    simp only [hostStep, hostReadOut] at h
    split at h
    · cases h
    · split at h
      · split at h
        · cases h
          exact .inr (.inl ⟨_, rfl⟩)
        · cases h
      · cases h
  | readDbg k =>
    simp only [hostStep, hostReadDbg] at h
    split at h
    · cases h
      exact .inr (.inl ⟨_, rfl⟩)
    · cases h

/-- Who moves in a step, and from which state. -/
theorem step_next {s t : State} (h : step s = .next t) :
    (∃ r, (s.schedule = [] ∧ r = [] ∨ s.schedule = .engine :: r) ∧ engineStep { s with schedule := r } = .next t) ∨
      (∃ op r, s.schedule = .host op :: r ∧ hostStep op { s with schedule := r } = .next t) ∨
      (∃ r, s.schedule = .reset :: r ∧ t = hardReset { s with schedule := r }) := by
  simp only [step, stepAgents] at h
  split at h
  · rename_i hs
    refine .inl ⟨[], .inl ⟨hs, rfl⟩, ?_⟩
    rw [← hs]
    exact h
  · rename_i r hs
    exact .inl ⟨r, .inr hs, h⟩
  · rename_i op r hs
    exact .inr (.inl ⟨op, r, hs, h⟩)
  · rename_i r hs
    cases h
    exact .inr (.inr ⟨r, hs, rfl⟩)

/-- What the engine's step can do: nothing outside a run, its instruction within one. -/
theorem engineStep_next {s t : State} (h : engineStep s = .next t) :
    (s.busy = false ∧ t = s) ∨ (s.busy = true ∧ exec (fetchInstr s) s = .next t) := by
  unfold engineStep at h
  split at h
  · rename_i hb
    exact .inr ⟨hb, h⟩
  · rename_i hb
    cases h
    exact .inl ⟨by simpa using hb, rfl⟩

end Sys2Proof.Laws
end

