-- ==== Sys2Proof/Laws/Fetch.lean ====
section
/-! SUPPORT. An item put where the step takes its next item from (`placeItem`, `State.withFetchWord`) is the item the
step takes. -/

namespace Sys2Proof.Laws

open Sys2Proof.Machine

theorem hiNibble_mkByte (t u : Token) : hiNibble (mkByte t u) = t := by
  revert t u
  decide

theorem loNibble_mkByte (t u : Token) : loNibble (mkByte t u) = u := by
  revert t u
  decide

/-- Reading a cell of `IN` that was just written. -/
theorem inByte_write_self {s : State} {m : Memory} {i : Nat} {v : Byte} (h : s.inCells = Memory.write m i v) :
    inByte s i = v := by
  simp [inByte, h]

@[simp] theorem armEngine_inCells (dir : Direction) (n : Nat) (s : State) : (armEngine dir n s).inCells = s.inCells := rfl
@[simp] theorem armEngine_cur (dir : Direction) (n : Nat) (s : State) : (armEngine dir n s).cur = s.cur := rfl
@[simp] theorem armEngine_mode (dir : Direction) (n : Nat) (s : State) : (armEngine dir n s).mode = dir := rfl
@[simp] theorem armEngine_inLen (dir : Direction) (n : Nat) (s : State) : (armEngine dir n s).inLen = n := rfl
@[simp] theorem armEngine_busy (dir : Direction) (n : Nat) (s : State) : (armEngine dir n s).busy = true := rfl

/-- A token put at `CUR` is the item fetched. -/
theorem fetchItem_placeItem_tok (t : Token) (s : State) : fetchItem (placeItem (.tok t) s) = .tok t := by
  have hlt : s.cur < 8 * max s.inLen (s.cur / 8 + 1) := by omega
  simp only [fetchItem, placeItem, endOf, armEngine_cur, armEngine_mode, armEngine_inLen, hlt, if_true, fetchToken,
    Item.tok.injEq]
  rw [inByte_write_self (by rw [armEngine_inCells])]
  split
  · exact hiNibble_mkByte t 0
  · exact loNibble_mkByte 0 t

/-- A character put at `CUR` is the item fetched. -/
theorem fetchItem_placeItem_char (c : Byte) (s : State) : fetchItem (placeItem (.char c) s) = .char c := by
  have hlt : s.cur < max s.inLen (s.cur + 1) := by omega
  simp only [fetchItem, placeItem, endOf, armEngine_cur, armEngine_mode, armEngine_inLen, hlt, if_true, Item.char.injEq]
  exact inByte_write_self (by rw [armEngine_inCells])

/-- The end of input put at `CUR` is the item fetched. -/
theorem fetchItem_placeItem_eos (dir : Direction) (s : State) : fetchItem (placeItem (.eos dir) s) = .eos dir := by
  have hlt : ¬s.cur < 8 * (s.cur / 8) := by omega
  cases dir <;> simp [fetchItem, placeItem, endOf, hlt]

/-- With nothing else scheduled, the next step runs the instruction put there. -/
theorem step_placeItem {x : Item} {i : Instr} {s : State} (hx : ∀ v, x ≠ .cmd v) (hs : s.schedule = [])
    (hd : decode x = .instr i) : step (placeItem x s) = exec i (placeItem x s) := by
  have hf : fetchItem (placeItem x s) = x := by
    cases x with
    | tok t => exact fetchItem_placeItem_tok t s
    | char c => exact fetchItem_placeItem_char c s
    | eos dir => exact fetchItem_placeItem_eos dir s
    | cmd v => exact absurd rfl (hx v)
  have hi : fetchInstr (placeItem x s) = i := by
    have h := decode_fetchItem (placeItem x s)
    rw [hf, hd] at h
    exact (Decoded.instr.inj h).symm
  have hb : (placeItem x s).busy = true ∧ (placeItem x s).schedule = [] := by
    cases x with
    | tok t => simp [placeItem, armEngine, hs]
    | char c => simp [placeItem, armEngine, hs]
    | eos dir => cases dir <;> simp [placeItem, armEngine, hs]
    | cmd v => exact absurd rfl (hx v)
  simp only [step, stepAgents, hb.2, engineStep, hb.1, if_true, hi]

/-- A `START` put there is the host's next action. -/
theorem step_placeItem_cmd {v : Byte} {i : Instr} {s : State} (hd : decode (.cmd v) = .instr i) :
    step (placeItem (.cmd v) s) = exec i { placeItem (.cmd v) s with schedule := s.schedule } := by
  have hv : v.toNat < 256 := v.isLt
  simp only [step, stepAgents, placeItem, hostStep, hostWriteReg, hostWriteCmd, hv, if_true, BitVec.ofNat_toNat,
    BitVec.setWidth_eq, hd]

end Sys2Proof.Laws
end

