-- ==== Sys2Proof/Laws/PerInstr.lean ====
section
/-! SUPPORT. The families of statements made per instruction (LAWS.json): one lemma per constructor. -/

namespace Sys2Proof.Laws

/-- The item an instruction is encoded as has the format of its row of the opcode table (30_encoding.md R53). -/
def ItemFormat.Statement (i : Instr) : Prop := (encode i).format = i.format

theorem ItemFormat.dCmd0 : ItemFormat.Statement .dCmd0 := rfl
theorem ItemFormat.dCmd1 : ItemFormat.Statement .dCmd1 := rfl
theorem ItemFormat.dCmd2 : ItemFormat.Statement .dCmd2 := rfl
theorem ItemFormat.dCmd3 : ItemFormat.Statement .dCmd3 := rfl
theorem ItemFormat.dCmd4 : ItemFormat.Statement .dCmd4 := rfl
theorem ItemFormat.dCmd5 : ItemFormat.Statement .dCmd5 := rfl
theorem ItemFormat.dCmd6 : ItemFormat.Statement .dCmd6 := rfl
theorem ItemFormat.dCmd7 : ItemFormat.Statement .dCmd7 := rfl
theorem ItemFormat.dPad : ItemFormat.Statement .dPad := rfl
theorem ItemFormat.dTab : ItemFormat.Statement .dTab := rfl
theorem ItemFormat.dNl : ItemFormat.Statement .dNl := rfl
theorem ItemFormat.dNop3 : ItemFormat.Statement .dNop3 := rfl
theorem ItemFormat.dNop4 : ItemFormat.Statement .dNop4 := rfl
theorem ItemFormat.dNop5 : ItemFormat.Statement .dNop5 := rfl
theorem ItemFormat.dNop6 : ItemFormat.Statement .dNop6 := rfl
theorem ItemFormat.dNop7 : ItemFormat.Statement .dNop7 := rfl
theorem ItemFormat.dEos : ItemFormat.Statement .dEos := rfl
theorem ItemFormat.eCmd0 : ItemFormat.Statement .eCmd0 := rfl
theorem ItemFormat.eCmd1 : ItemFormat.Statement .eCmd1 := rfl
theorem ItemFormat.eCmd2 : ItemFormat.Statement .eCmd2 := rfl
theorem ItemFormat.eCmd3 : ItemFormat.Statement .eCmd3 := rfl
theorem ItemFormat.eCmd4 : ItemFormat.Statement .eCmd4 := rfl
theorem ItemFormat.eCmd5 : ItemFormat.Statement .eCmd5 := rfl
theorem ItemFormat.eCmd6 : ItemFormat.Statement .eCmd6 := rfl
theorem ItemFormat.eCmd7 : ItemFormat.Statement .eCmd7 := rfl
theorem ItemFormat.eTab : ItemFormat.Statement .eTab := rfl
theorem ItemFormat.eNl : ItemFormat.Statement .eNl := rfl
theorem ItemFormat.eCr : ItemFormat.Statement .eCr := rfl
theorem ItemFormat.eSkip (c : Byte) : ItemFormat.Statement (.eSkip c) := rfl
theorem ItemFormat.eEos : ItemFormat.Statement .eEos := rfl
theorem ItemFormat.start (ignored : BitVec 7) : ItemFormat.Statement (.start ignored) := rfl

end Sys2Proof.Laws
end

