-- ==== Sys2Proof/Tests/Slice0.lean ====
section
/-! SUPPORT. The model's own tests. Words are written out from the encodings of 30_encoding.md R54 to R58, R62, R63;
expected results are from 95_test_vectors.md (V1 to V54) or the rule named. Then one witness for every statement of
Certificates/Slice0/Obligations.lean that has hypotheses. -/

namespace Sys2Proof.Tests

open Sys2Proof.Machine Sys2Proof.Safety

/-! ## Helpers -/

/-- The next state of an outcome. -/
def next? : Host.Outcome State Fault Refusal → Option State
  | .next s => some s
  | _ => none

/-- The bytes of a list as cells from index `i` on. -/
def cellsFrom : Nat → List Byte → Memory
  | _, [] => []
  | i, b :: rest => (i, b) :: cellsFrom (i + 1) rest

/-- The state at the entry of a run over `bytes`. -/
def startOf (dir : Direction) (lossy : Bool) (bytes : List Byte) : State :=
  { State.reset with
    mode := dir
    lossy := lossy
    busy := true
    inLen := bytes.length
    inCells := cellsFrom 0 bytes }

/-- A packer state `(ACC, HALF)` in an encode run. -/
def packer (acc : Byte) (half : Half) (lossy : Bool) : State :=
  { State.reset with busy := true, inLen := 4, acc := acc, half := half, lossy := lossy }

/-- What an encode step shows. -/
structure Packed where
  acc : Byte
  half : Half
  out : Memory
  cur : Nat
  deriving DecidableEq, Repr

/-- `(ACC, HALF)`, the cells of `OUT`, and `CUR` after an instruction. -/
def packed (i : Instr) (s : State) : Option Packed :=
  (next? (exec i s)).map (fun t => ⟨t.acc, t.half, t.outCells, t.cur⟩)

/-- The cells of `OUT` and `CUR` after an instruction from a decode run at its start. -/
def decoded (i : Instr) (lossy : Bool) : Option (Memory × Nat) :=
  (next? (exec i (startOf .decode lossy [0x00]))).map (fun t => (t.outCells, t.cur))

/-! ## Well-formedness: the one check, and the terms it refuses -/

theorem test_wf_refuses_recognised_chars :
    [0x09, 0x0A, 0x0D, 0x2B, 0x2C, 0x2D, 0x2E, 0x3C, 0x3E, 0x5B, 0x5D].map (fun c => (Instr.eSkip c).wf) =
      List.replicate 11 false := by decide

theorem test_wf_accepts :
    (Instr.eSkip 0x20).wf = true ∧ (Instr.eSkip 0x00).wf = true ∧ (Instr.eSkip 0xFF).wf = true ∧
      (Instr.eSkip 0x3D).wf = true ∧ Instr.dCmd0.wf = true ∧ (Instr.start 0x7F).wf = true := by decide

/-! ## Decoding: every constructor's word, written out -/

theorem test_decode_tok4 :
    [0b0000, 0b0001, 0b0010, 0b0011, 0b0100, 0b0101, 0b0110, 0b0111, 0b1000, 0b1001, 0b1010, 0b1011, 0b1100, 0b1101,
        0b1110, 0b1111].map (fun t => decode (.tok t)) =
      [.dCmd0, .dCmd1, .dCmd2, .dCmd3, .dCmd4, .dCmd5, .dCmd6, .dCmd7, .dPad, .dTab, .dNl, .dNop3, .dNop4, .dNop5,
        .dNop6, .dNop7].map Decoded.instr := by decide

theorem test_decode_char8 :
    [0b00111110, 0b00111100, 0b00101011, 0b00101101, 0b00101110, 0b00101100, 0b01011011, 0b01011101, 0b00001001,
        0b00001010, 0b00001101, 0b00100000].map (fun c => decode (.char c)) =
      [.eCmd0, .eCmd1, .eCmd2, .eCmd3, .eCmd4, .eCmd5, .eCmd6, .eCmd7, .eTab, .eNl, .eCr, .eSkip 0x20].map
        Decoded.instr := by decide

/-- V1: `=` and backslash stand between command characters and are none. -/
theorem test_decode_neighbours :
    decode (.char 0x3D) = .instr (.eSkip 0x3D) ∧ decode (.char 0x5C) = .instr (.eSkip 0x5C) ∧
      decode (.char 0x0B) = .instr (.eSkip 0x0B) := by decide

theorem test_decode_eos :
    decode (.eos .encode) = .instr .eEos ∧ decode (.eos .decode) = .instr .dEos := by decide

/-- V51. -/
theorem test_decode_cmd8 :
    decode (.cmd 0b00000001) = .instr (.start 0) ∧ decode (.cmd 0b11111111) = .instr (.start 0x7F) ∧
      decode (.cmd 0b00000000) = .noOperation ∧ decode (.cmd 0b11111110) = .noOperation := by decide

/-- The host's question, where the table's bits alone say the row (log 14). -/
theorem test_decodeTableWord :
    decodeTableWord 4 0x9 = some .dTab ∧ decodeTableWord 8 0x0F = some .dNop7 ∧ decodeTableWord 8 0x5D = some .eCmd7 ∧
      decodeTableWord 8 0xFF = some (.start 0x7F) ∧ decodeTableWord 8 0x20 = some (.eSkip 0x20) ∧
      decodeTableWord 0 0 = some .eEos ∧ decodeTableWord 16 0 = none := by decide

/-- A table word placed after reset is run by the next step. -/
theorem test_withFetchWord :
    (next? (step (State.reset.withFetchWord 8 0x2B))).map (fun t => (t.acc, t.half, t.cur)) =
        some (0x20, .awaitingLow, 1) ∧
      (next? (step (State.reset.withFetchWord 8 0x07))).map (fun t => (t.outCells, t.cur)) = some ([(0, 0x5D)], 4) ∧
      (next? (step (State.reset.withFetchWord 8 0xFF))).map (fun t => (t.busy, t.schedule)) = some (true, []) := by
  decide

/-! ## The lookups: V7, V8 -/

theorem test_assembly :
    mkToken 0 5 = 0x5 ∧ mkToken 1 0 = 0x8 ∧ mkToken 1 2 = 0xA ∧ mkToken 1 7 = 0xF ∧ mkByte 0x2 0x4 = 0x24 ∧
      mkByte 0x7 0xA = 0x7A ∧ hiNibble 0x63 = 0x6 ∧ loNibble 0x63 = 0x3 := by decide

theorem test_stream_bits :
    (List.range 16).map (streamBit (startOf .decode false [0x7A, 0x80])) =
      [false, true, true, true, true, false, true, false, true, false, false, false, false, false, false, false] := by
  decide

theorem test_fetch_tokens :
    [0, 4, 8, 12].map (fun c => fetchToken { startOf .decode false [0x7A, 0x80] with cur := c }) =
      [0x7, 0xA, 0x8, 0x0] := by decide

/-! ## The decode direction: V10 and V11, token by token -/

theorem test_tokens_lossy0 :
    [.dCmd0, .dCmd1, .dCmd2, .dCmd3, .dCmd4, .dCmd5, .dCmd6, .dCmd7, .dTab, .dNl].map (fun i => decoded i false) =
      [0x3E, 0x3C, 0x2B, 0x2D, 0x2E, 0x2C, 0x5B, 0x5D, 0x09, 0x0A].map (fun c => some ([(0, c)], 4)) := by decide

theorem test_noop_tokens_lossy0 :
    [.dPad, .dNop3, .dNop4, .dNop5, .dNop6, .dNop7].map (fun i => decoded i false) =
      List.replicate 6 (some ([], 4)) := by decide

theorem test_tokens_lossy1 :
    [.dCmd0, .dCmd7, .dPad, .dTab, .dNl, .dNop3, .dNop4, .dNop5, .dNop6, .dNop7].map (fun i => decoded i true) =
      [0x3E, 0x5D, 0x3E, 0x3C, 0x2B, 0x2D, 0x2E, 0x2C, 0x5B, 0x5D].map (fun c => some ([(0, c)], 4)) := by decide

/-- V9: an empty decode run ends at its first step. -/
theorem test_decode_empty :
    (next? (step (startOf .decode false []))).map (fun t => (statusWord t, t.outLen, t.cur)) = some (0x02, 0, 0) := by
  decide

/-- R106: a trace record for a character appended, none for a pad. -/
theorem test_decode_trace :
    (next? (exec .dCmd2 { startOf .decode false [0x28] with debug := true })).map (·.dbg) = some [.decoded 0x2B] ∧
      (next? (exec .dPad { startOf .decode false [0x28] with debug := true })).map (·.dbg) = some [] := by decide

/-! ## The encode direction: the examples of R113 to R124 and V40 to V48 -/

theorem test_chars_high :
    [.eCmd0, .eCmd1, .eCmd2, .eCmd3, .eCmd4, .eCmd5, .eCmd6, .eCmd7, .eTab, .eNl].map
        (fun i => packed i (packer 0x00 .awaitingHigh false)) =
      [0x00, 0x10, 0x20, 0x30, 0x40, 0x50, 0x60, 0x70, 0x90, 0xA0].map (fun a => some ⟨a, .awaitingLow, [], 1⟩) := by
  decide

theorem test_chars_low :
    [.eCmd0, .eCmd1, .eCmd2, .eCmd3, .eCmd4, .eCmd5, .eCmd6, .eCmd7, .eTab, .eNl].map
        (fun i => packed i (packer 0x20 .awaitingLow false)) =
      [0x20, 0x21, 0x22, 0x23, 0x24, 0x25, 0x26, 0x27, 0x29, 0x2A].map
        (fun b => some ⟨0x00, .awaitingHigh, [(0, b)], 1⟩) := by decide

/-- V48. -/
theorem test_skipped_chars :
    [.eCr, .eSkip 0x20, .eSkip 0xFF, .eTab, .eNl].map (fun i => packed i (packer 0x20 .awaitingLow true)) =
      List.replicate 5 (some ⟨0x20, .awaitingLow, [], 1⟩) := by decide

/-- V42, V43: token 0 is told from emptiness by `HALF`. -/
theorem test_place_zero :
    packed .eCmd0 (packer 0x00 .awaitingLow false) = some ⟨0x00, .awaitingHigh, [(0, 0x00)], 1⟩ := by decide

/-- V44 to V46. -/
theorem test_encode_end :
    packed .eEos (packer 0x00 .awaitingLow false) = some ⟨0x00, .awaitingHigh, [(0, 0x08)], 0⟩ ∧
      packed .eEos (packer 0x70 .awaitingLow true) = some ⟨0x00, .awaitingHigh, [(0, 0x78)], 0⟩ ∧
      packed .eEos (packer 0x00 .awaitingHigh false) = some ⟨0x00, .awaitingHigh, [], 0⟩ := by decide

/-- V53: the records of a high and of a low placement. -/
theorem test_encode_trace :
    (next? (exec .eCmd2 { packer 0x00 .awaitingHigh false with debug := true })).map (·.dbg) =
        some [.placed 0x2B 2 0 .awaitingLow false] ∧
      (next? (exec .eCmd2 { packer 0x20 .awaitingLow false with debug := true })).map (·.dbg) =
        some [.placed 0x2B 2 2 .awaitingHigh true] := by decide

/-! ## Run control: V50 to V52 -/

theorem test_start_from_reset :
    (next? (step { State.reset with schedule := [.host (.writeReg 1 0x01)] })).map (fun t => (statusWord t, t.cur)) =
      some (0x01, 0) := by decide

/-- R144: `START` in state `DONE` discards the previous result. -/
theorem test_start_after_done :
    (next? (exec (.start 0) { State.reset with done := true, outLen := 3, cur := 8, dbg := [.decoded 0x2B] })).map
      (fun t => (statusWord t, t.outLen, t.cur, t.dbg)) = some (0x01, 0, 0, []) := by decide

theorem test_ctrl_reads_back :
    ((next? (hostStep (.writeReg 0 0xFF) State.reset)).map (fun t => hostStep (.readReg 0) t) |>.bind next?).map
      (·.readData) = some (some (.number 0x07)) := by decide

/-! ## Witnesses: the hypotheses of the statements can be met -/

/-- A run that ended with two bytes of result and a trace, not busy, over a buffer of 3 bytes. -/
def doneState : State :=
  { State.reset with
    done := true
    cur := 3
    inLen := 3
    outLen := 2
    inCells := cellsFrom 0 [0x2B, 0x0A, 0x5D]
    outCells := cellsFrom 0 [0x2A, 0x78]
    dbg := [.decoded 0x2B]
    inCap := some 3 }

theorem witness_DecodeUndoesEncode : WellFormed (.eSkip 0x3D) ∧ WellFormed .dCmd0 ∧ WellFormed (.start 0x7F) := by decide

theorem witness_EncodeUndoesDecode :
    decode (.tok 0xF) = .instr .dNop7 ∧ decode (.char 0xFF) = .instr (.eSkip 0xFF) ∧
      decode (.eos .decode) = .instr .dEos ∧ decode (.cmd 0xFF) = .instr (.start 0x7F) := by decide

theorem witness_FetchedTokenIsFourStreamBits :
    { startOf .decode false [0x7A] with cur := 4 }.cur % 4 = 0 ∧ (startOf .decode false [0x7A]).cur % 4 = 0 := by decide

theorem witness_EndOfInputIsTestedFirst_end :
    { startOf .encode false [0x2B] with cur := 1 }.cur = endOf { startOf .encode false [0x2B] with cur := 1 } ∧
      { startOf .decode false [0x28] with cur := 8 }.cur = endOf { startOf .decode false [0x28] with cur := 8 } ∧
      (startOf .encode false [0x2B]).busy = true ∧ (startOf .decode false [0x28]).busy = true := by decide

theorem witness_EndOfInputIsTestedFirst_below :
    (startOf .encode false [0x2B]).cur < endOf (startOf .encode false [0x2B]) ∧
      { startOf .decode false [0x28] with cur := 4 }.cur < endOf { startOf .decode false [0x28] with cur := 4 } := by
  decide

theorem witness_FetchReadsOnlyTheInput :
    ∀ i, i < 1 → inByte (startOf .encode false [0x2B]) i =
      inByte { startOf .encode false [0x2B] with inCells := [(0, 0x2B), (1, 0x5D)] } i := by decide

theorem witness_StepRunsTheDecodedInstruction :
    decode (fetchItem (startOf .encode false [0x2B])) = .instr .eCmd2 ∧ (startOf .encode false [0x2B]).busy = true ∧
      (startOf .encode false [0x2B]).schedule = [] ∧ decode (.cmd (BitVec.ofNat 8 255)) = .instr (.start 0x7F) ∧
      { State.reset with schedule := [.host (.writeReg 1 255)] }.schedule = [.host (.writeReg 1 255)] ∧
      State.reset.busy = false ∧ { State.reset with schedule := [.engine] }.schedule = [.engine] := by decide

theorem witness_IdleAndDonePerformNoStep : State.reset.busy = false ∧ State.reset.schedule = [] ∧
    { doneState with schedule := [.engine] }.busy = false := by decide

theorem witness_EngineStepProgresses :
    (startOf .decode false [0x28]).busy = true ∧
      (startOf .decode false [0x28]).cur < endOf (startOf .decode false [0x28]) ∧
      endOf (startOf .encode false []) ≤ (startOf .encode false []).cur := by decide

theorem witness_lossy : State.reset.lossy = false ∧ { State.reset with lossy := true }.lossy = true := by decide

theorem witness_EndOfInput :
    { startOf .decode true [0x28] with cur := 8 }.cur = 8 * { startOf .decode true [0x28] with cur := 8 }.inLen ∧
      { startOf .encode true [0x2B] with cur := 1 }.cur = { startOf .encode true [0x2B] with cur := 1 }.inLen := by
  decide

theorem witness_IgnoredCharsAreSkipped :
    (0x00 : Byte) ∉ ([0x09, 0x0A, 0x0D, 0x2B, 0x2C, 0x2D, 0x2E, 0x3C, 0x3E, 0x5B, 0x5D] : List Byte) := by decide

theorem witness_DecodeFrame :
    (next? (exec (decodeTok 0x9) State.reset)).isSome = true ∧ (next? (exec (decodeTok 0x8) State.reset)).isSome = true ∧
      decChar 0x9 false = some 0x09 ∧ decChar 0x8 false = none ∧ (next? (exec .dEos State.reset)).isSome = true := by decide

theorem witness_PlaceAndFlush :
    (packer 0x00 .awaitingHigh false).half = .awaitingHigh ∧ (packer 0x20 .awaitingLow false).half = .awaitingLow := by
  decide

theorem witness_PackerLanesAreIndependent :
    AccHalf (packer 0x00 .awaitingHigh false) ∧ AccHalf (packer 0xF0 .awaitingLow false) := by decide

theorem witness_EncodeFrame :
    (next? (exec (decodeChar 0x2B) (packer 0x20 .awaitingLow false))).isSome = true ∧ encTok 0x2B false = some 0x2 ∧
      (next? (exec (decodeChar 0x2B) (packer 0x00 .awaitingHigh false))).isSome = true ∧
      (next? (exec (decodeChar 0x0A) (packer 0x20 .awaitingLow true))).isSome = true ∧ encTok 0x0A true = none ∧
      (next? (exec .eEos (packer 0x20 .awaitingLow true))).isSome = true := by decide

theorem witness_StartBeginsARun :
    doneState.busy = false ∧ (∀ c, doneState.inCap = some c → doneState.inLen ≤ c) ∧
      (∀ c, State.reset.inCap = some c → State.reset.inLen ≤ c) := by
  refine ⟨rfl, fun c h => ?_, fun c h => ?_⟩
  · cases h
    decide
  · cases h

theorem witness_StartFrame : (next? (exec (.start 0) doneState)).isSome = true := by decide

theorem witness_HostViolationsAreRefused :
    (startOf .encode false [0x2B]).busy = true ∧ { doneState with inLen := 4 }.inCap = some 3 ∧
      3 < { doneState with inLen := 4 }.inLen ∧ doneState.outLen ≤ 2 ∧ doneState.busy = false := by decide

theorem witness_CommandRegister :
    (255 : Nat) < 256 ∧ (255 : Nat) % 2 = 1 ∧ (254 : Nat) < 256 ∧ (254 : Nat) % 2 = 0 := by decide

theorem witness_ControlRegister : (255 : Nat) < 256 ∧ doneState.busy = false := by decide

theorem witness_OtherRegisters : doneState.busy = false ∧ (∀ c, doneState.inCap = some c → 3 ≤ c) ∧ 4 < 5 := by
  refine ⟨rfl, fun c h => ?_, by decide⟩
  cases h
  decide

theorem witness_HostBuffers :
    (∀ c, doneState.inCap = some c → 2 < c) ∧ 1 < doneState.outLen ∧ Memory.read doneState.outCells 1 = some 0x78 ∧
      doneState.dbg[0]? = some (.decoded 0x2B) := by
  refine ⟨fun c h => ?_, by decide⟩
  cases h
  decide

theorem witness_HostReadsHaveNoSideEffect :
    (next? (hostStep (.readOut 1) doneState)).isSome = true ∧
      (next? (hostStep (.readReg 2) (startOf .encode false []))).isSome = true := by decide

theorem witness_TraceRecords : { doneState with debug := true }.debug = true ∧ doneState.debug = false := by decide

theorem witness_ResultStaysReadable :
    (next? (step { doneState with schedule := [.host (.writeReg 0 0x01)] })).map (·.busy) = some false ∧
      doneState.busy = false := by decide

theorem witness_HardwareResetFromAnyState :
    { startOf .decode true [0x28] with schedule := [.reset] }.schedule = .reset :: [] := by decide

theorem witness_AccHalfInvariant :
    AccHalf { startOf .encode false [0x2B] with acc := 0x20, half := .awaitingLow } ∧
      (next? (step { startOf .encode false [0x2B] with acc := 0x20, half := .awaitingLow })).isSome = true ∧
      (next? (exec (.start 0) doneState)).isSome = true := by decide

theorem witness_InvariantKept_done : Inv doneState := by decide

theorem witness_InvariantKept_busy : Inv (startOf .decode false [0x28]) := by decide

theorem witness_InvariantKept_step : (next? (step (startOf .decode false [0x28]))).isSome = true := by decide

theorem witness_OptionsAreConstantInARun :
    (startOf .encode false [0x2B]).busy = true ∧ (next? (step (startOf .encode false [0x2B]))).isSome = true := by decide

theorem witness_NoInstructionWritesTheInput :
    (next? (exec .dNl doneState)).isSome = true ∧ (next? (exec (.eSkip 0x20) doneState)).isSome = true := by decide

theorem witness_OutputIsOnlyAppendedTo :
    (next? (exec .eEos (packer 0x20 .awaitingLow false))).isSome = true ∧
      (next? (exec (.start 0) doneState)).isSome = true := by decide

theorem witness_EveryRunReachesDone :
    (startOf .encode false [0x2B]).busy = true ∧ (startOf .encode false [0x2B]).schedule = [] ∧
      (startOf .encode false [0x2B]).cur ≤ endOf (startOf .encode false [0x2B]) ∧
      { startOf .decode false [0x28] with cur := 8 }.cur ≤ endOf { startOf .decode false [0x28] with cur := 8 } ∧
      { startOf .decode false [0x28] with cur := 8 }.cur % 4 = 0 := by decide

theorem witness_DecodeRunOutput : AtRunStart .decode (startOf .decode true [0x28]) := by decide

theorem witness_EncodeRunOutput : AtRunStart .encode (startOf .encode false [0x2B, 0x0A]) := by decide

/-- The packed byte of the text `+`, NL is `0x2A`; the run that wrote it and a decode run over it. -/
theorem witness_NonLossyRoundTrip :
    AtRunStart .encode (startOf .encode false [0x2B, 0x0A]) ∧
      (∀ c ∈ inputBytes (startOf .encode false [0x2B, 0x0A]), c ∈ roundTripChars) ∧
      (next? (runSteps 3 (startOf .encode false [0x2B, 0x0A]))).map (fun t => (t.outLen, t.outCells)) =
        some (1, [(0, 0x2A)]) ∧
      AtRunStart .decode (startOf .decode false [0x2A]) ∧ inByte (startOf .decode false [0x2A]) 0 = 0x2A := by decide

theorem witness_LossyEncodingStripsFormatting :
    AtRunStart .encode (startOf .encode true [0x2B, 0x0A]) ∧
      (∀ c ∈ inputBytes (startOf .encode true [0x2B, 0x0A]), c ∈ roundTripChars) ∧
      (next? (runSteps 3 (startOf .encode true [0x2B, 0x0A]))).map (fun t => (t.outLen, t.outCells)) =
        some (1, [(0, 0x28)]) := by decide

theorem witness_IgnoredCharsAreTransparent :
    AtRunStart .encode (startOf .encode false [0x2B, 0x0D, 0x20]) ∧
      (inputBytes (startOf .encode false [0x2B, 0x0D, 0x20])).filter (fun c => c ∈ roundTripChars) =
        (inputBytes (startOf .encode false [0x2B])).filter (fun c => c ∈ roundTripChars) := by decide

theorem witness_DebugNeverAffectsTheRun : (startOf .encode false [0x2B]).schedule = [] := by decide

theorem witness_ResultDependsOnlyOnTheInput :
    doneState.busy = false ∧ Config.inFits doneState.inCap doneState.inLen = true ∧ doneState.schedule = [] ∧
      inputBytes doneState = inputBytes { doneState with acc := 0x20, cur := 0, outLen := 0, dbg := [] } := by decide

end Sys2Proof.Tests
end

section
/-! The host's registers `CTRL` and `CMD` and the settings of a run (10_state.md R16, R20, R21). -/

namespace Sys2Proof.Proofs

open Sys2Proof.Machine Sys2Proof.Safety Sys2Proof.Laws

/-! ## What a run leaves unchanged -/

/-- No instruction changes `CTRL`, `IN_LEN`, `IN` or the fields that are not the block's. -/
theorem exec_sameSettings {i : Instr} {s t : State} (h : exec i s = .next t) : SameSettings s t := by
  rcases exec_next h with ⟨ch, rfl⟩ | rfl | ⟨tok, c, rfl⟩ | rfl | rfl | rfl | ⟨-, -, rfl⟩ <;> simp [SameSettings]

/-- The engine's step keeps the settings, within a run and outside one. -/
theorem engineStep_sameSettings {s t : State} (h : engineStep s = .next t) : SameSettings s t := by
  rcases engineStep_next h with ⟨-, rfl⟩ | ⟨-, hexec⟩
  · simp [SameSettings]
  · exact exec_sameSettings hexec

/-- While busy the host can only read: its writes are refused or ignored (60_exceptions.md R137). -/
theorem hostStep_next_of_busy {op : HostOp} {s t : State} (hb : s.busy = true) (h : hostStep op s = .next t) :
    t = s ∨ ∃ v, t = returnToHost v s := by
  rcases hostStep_next h with rfl | hread | ⟨hidle, -⟩
  · exact .inl rfl
  · exact .inr hread
  · simp [hb] at hidle

/-- Settles O45: of the three movers the engine keeps the settings, the host can only read, and reset is excluded. -/
theorem optionsAreConstantInARun : Obligations.OptionsAreConstantInARun := by
  intro s t hb hreset h
  rcases step_next h with ⟨r, -, hengine⟩ | ⟨op, r, -, hhost⟩ | ⟨r, hs, -⟩
  · obtain ⟨hmode, hlossy, hdebug, hinLen, -⟩ := engineStep_sameSettings hengine
    exact ⟨hmode, hlossy, hdebug, hinLen⟩
  · rcases hostStep_next_of_busy (s := { s with schedule := r }) hb hhost with rfl | ⟨v, rfl⟩ <;> exact ⟨rfl, rfl, rfl, rfl⟩
  · exact absurd hs (hreset r)

/-! ## `CMD` -/

/-- The field `start` of a `CMD` value is its bit 0, the value's remainder by 2 (30_encoding.md R57). -/
theorem startField_ofNat (v : Nat) : (BitVec.ofNat 8 v).extractLsb' 0 1 = BitVec.ofNat 1 v := by
  apply BitVec.eq_of_toNat_eq
  simp only [BitVec.extractLsb'_toNat, BitVec.toNat_ofNat, Nat.shiftRight_zero]
  omega

/-- An odd value written to `CMD` decodes to `START`. -/
theorem decode_cmd_odd {v : Nat} (hodd : v % 2 = 1) :
    decode (.cmd (BitVec.ofNat 8 v)) = .instr (.start ((BitVec.ofNat 8 v).extractLsb' 1 7)) := by
  have hbit : BitVec.ofNat 1 v = 1 := BitVec.eq_of_toNat_eq (by simpa using hodd)
  simp [decode, decodeCmd, startField_ofNat, hbit]

/-- An even value written to `CMD` is no operation. -/
theorem decode_cmd_even {v : Nat} (heven : v % 2 = 0) : decode (.cmd (BitVec.ofNat 8 v)) = .noOperation := by
  have hbit : BitVec.ofNat 1 v = 0 := BitVec.eq_of_toNat_eq (by simpa using heven)
  simp [decode, decodeCmd, startField_ofNat, hbit]

/-- Settles O33: the write runs what its value decodes to, and bit 0 alone says which that is. -/
theorem commandRegister : Obligations.CommandRegister := by
  intro s
  refine ⟨fun v hv hodd => ⟨(BitVec.ofNat 8 v).extractLsb' 1 7, ?_⟩, fun v hv heven => ?_, rfl⟩
  · simp only [hostStep, hostWriteReg, hostWriteCmd, hv, if_true, decode_cmd_odd hodd]
  · simp only [hostStep, hostWriteReg, hostWriteCmd, hv, if_true, decode_cmd_even heven]

/-! ## `CTRL` -/

/-- The word read from `CTRL`, as a number. -/
theorem ctrlWord_toNat (s : State) : (ctrlWord s).toNat =
    (if s.mode = .decode then 1 else 0) + (if s.lossy then 2 else 0) + (if s.debug then 4 else 0) := by
  unfold ctrlWord
  cases s.mode <;> cases s.lossy <;> cases s.debug <;> rfl

/-- `bitAt b k` has the bit `b` at position `k` and no other bit. -/
theorem getLsbD_bitAt (b : Bool) (k j : Nat) : (bitAt b k).getLsbD j = (decide (j < 8) && decide (k = j) && b) := by
  cases b
  · simp [bitAt]
  · have hpow : bitAt true k = BitVec.twoPow 8 k := rfl
    rw [hpow, BitVec.getLsbD_twoPow]
    by_cases hkj : k = j <;> simp [hkj]

/-- `CTRL` reads, after a write, as the three written bits that have storage (log 12). -/
theorem ctrlWord_writeCtrl (v : Byte) (s : State) : ctrlWord (writeCtrl v s) = v &&& 0x07 := by
  apply BitVec.eq_of_getLsbD_eq
  intro j hj
  simp only [ctrlWord, writeCtrl_mode, writeCtrl_lossy, writeCtrl_debug, BitVec.getLsbD_or, BitVec.getLsbD_and,
    getLsbD_bitAt]
  interval_cases j <;> simp

/-- Settles O34: the read by the eight values of the fields, the write bit by bit. -/
theorem controlRegister : Obligations.ControlRegister := by
  intro s
  refine ⟨?_, fun v hv hidle => ?_, fun v => ctrlWord_writeCtrl v s⟩
  · simp only [hostStep, hostReadReg, returnToHost, ctrlWord_toNat]
  · simp only [hostStep, hostWriteReg, hostWriteCtrl, hidle, Bool.false_eq_true, if_false, hv, if_true, writeCtrl,
      BitVec.getLsbD_ofNat, Nat.reduceLT, decide_true, Bool.true_and]

end Sys2Proof.Proofs
end

section
/-! How tokens and bytes are put together and taken apart (30_encoding.md R59, R60), and the order of the end-of-input
test and the fetch (R58). -/

namespace Sys2Proof.Proofs

open Sys2Proof.Machine Sys2Proof.Laws

/-! ## Tokens and bytes -/

/-- `{flag, payload}` is the concatenation of the two bit vectors (30_encoding.md R59). -/
theorem mkToken_eq_append (f : BitVec 1) (p : Code) : mkToken f p = f ++ p := by
  rw [mkToken, ← BitVec.setWidth_append_eq_shiftLeft_setWidth_or]
  exact BitVec.setWidth_eq _

/-- `{hi, lo}` is the concatenation of the two bit vectors (30_encoding.md R60). -/
theorem mkByte_eq_append (hi lo : Token) : mkByte hi lo = hi ++ lo := by
  rw [mkByte, ← BitVec.setWidth_append_eq_shiftLeft_setWidth_or]
  exact BitVec.setWidth_eq _

/-- A concatenation as a number: the low part does not reach into the shifted high part. -/
theorem toNat_append_eq_mul_add {m n : Nat} (x : BitVec m) (y : BitVec n) :
    (x ++ y).toNat = x.toNat * 2 ^ n + y.toNat := by
  rw [BitVec.toNat_append, ← Nat.shiftLeft_add_eq_or_of_lt y.isLt, Nat.shiftLeft_eq]

theorem mkToken_toNat (f : BitVec 1) (p : Code) : (mkToken f p).toNat = f.toNat * 8 + p.toNat := by
  rw [mkToken_eq_append]
  exact toNat_append_eq_mul_add f p

theorem flagOf_mkToken (f : BitVec 1) (p : Code) : flagOf (mkToken f p) = f := by
  rw [mkToken_eq_append]
  exact BitVec.extractLsb'_append_eq_left

theorem payloadOf_mkToken (f : BitVec 1) (p : Code) : payloadOf (mkToken f p) = p := by
  rw [mkToken_eq_append]
  exact BitVec.extractLsb'_append_eq_right

theorem mkToken_flagOf_payloadOf (t : Token) : mkToken (flagOf t) (payloadOf t) = t := by
  rw [mkToken_eq_append]
  exact BitVec.extractLsb'_append_extractLsb'

theorem mkByte_toNat (hi lo : Token) : (mkByte hi lo).toNat = hi.toNat * 16 + lo.toNat := by
  rw [mkByte_eq_append]
  exact toNat_append_eq_mul_add hi lo

theorem mkByte_hiNibble_loNibble (b : Byte) : mkByte (hiNibble b) (loNibble b) = b := by
  rw [mkByte_eq_append]
  exact BitVec.extractLsb'_append_extractLsb'

/-- Settles O6: both assemblies are concatenations, and the parts are the two ends of one. -/
theorem nibbleAndByteAssembly : Obligations.NibbleAndByteAssembly :=
  ⟨fun f p => ⟨mkToken_toNat f p, flagOf_mkToken f p, payloadOf_mkToken f p⟩, mkToken_flagOf_payloadOf,
    fun hi lo => ⟨mkByte_toNat hi lo, hiNibble_mkByte hi lo, loNibble_mkByte hi lo⟩, mkByte_hiNibble_loNibble⟩

/-! ## The end-of-input test and the fetch -/

/-- At `END` the item is the end of input of the direction; `IN` is not looked at. -/
theorem fetchItem_at_end {s : State} (hend : s.cur = endOf s) : fetchItem s = .eos s.mode := by
  rw [fetchItem, if_neg hend.not_lt]

/-- Below `END` an encode run fetches the character at `CUR`. -/
theorem fetchItem_encode {s : State} (hlt : s.cur < endOf s) (hmode : s.mode = .encode) :
    fetchItem s = .char (inByte s s.cur) := by
  simp only [fetchItem, hlt, if_true, hmode]

/-- Below `END` a decode run fetches the token at `CUR`. -/
theorem fetchItem_decode {s : State} (hlt : s.cur < endOf s) (hmode : s.mode = .decode) :
    fetchItem s = .tok (fetchToken s) := by
  simp only [fetchItem, hlt, if_true, hmode]

/-- While busy the engine's step runs the instruction that the fetched item decodes to. -/
theorem engineStep_of_decode_fetchItem {s : State} {i : Instr} (hb : s.busy = true)
    (hd : decode (fetchItem s) = .instr i) : engineStep s = exec i s := by
  have hi : fetchInstr s = i := Decoded.instr.inj ((decode_fetchItem s).symm.trans hd)
  rw [engineStep, if_pos hb, hi]

/-- While busy the engine's step runs what the item `x` decodes to, when `x` is the item fetched. -/
theorem fetchItem_and_engineStep {s : State} {x : Item} {i : Instr} (hb : s.busy = true) (hx : fetchItem s = x)
    (hd : decode x = .instr i) : fetchItem s = x ∧ engineStep s = exec i s :=
  ⟨hx, engineStep_of_decode_fetchItem hb (hx ▸ hd)⟩

/-- Settles O11: the item fetched in each of the four cases, and the row it decodes to. -/
theorem endOfInputIsTestedFirst : Obligations.EndOfInputIsTestedFirst := by
  intro s hb
  refine ⟨fun hend hmode => ?_, fun hend hmode => ?_, fun hlt hmode => ?_, fun hlt hmode => ?_⟩
  · exact fetchItem_and_engineStep hb (hmode ▸ fetchItem_at_end hend) rfl
  · exact fetchItem_and_engineStep hb (hmode ▸ fetchItem_at_end hend) rfl
  · exact fetchItem_and_engineStep hb (fetchItem_encode hlt hmode) rfl
  · exact fetchItem_and_engineStep hb (fetchItem_decode hlt hmode) rfl

end Sys2Proof.Proofs
end

section
/-! The four functions of the token alphabet: the pairs their tables list (40_token_alphabet.md R75 to R78) and their
inverse laws (R79). -/

namespace Sys2Proof.Proofs

open Sys2Proof.Machine

/-! ## Lookup in a table -/

/-- A lookup tests one key after the other, as an `if` chain does. -/
theorem lookup_cons_eq_ite {α β : Type} [BEq α] [LawfulBEq α] [DecidableEq α] (a k : α) (b : β) (l : List (α × β)) :
    List.lookup a ((k, b) :: l) = if a = k then some b else List.lookup a l := by
  rw [List.lookup_cons]
  by_cases hak : a = k
  · simp [hak]
  · simp [hak, beq_false_of_ne hak]

/-- What a lookup finds is a row of the table. -/
theorem mem_of_lookup_eq_some {α β : Type} [BEq α] [LawfulBEq α] {a : α} {b : β} {l : List (α × β)}
    (h : List.lookup a l = some b) : (a, b) ∈ l := by
  obtain ⟨before, after, rfl, -⟩ := List.lookup_eq_some_iff.mp h
  simp

/-! ## The tables -/

/-- The eight commands with their codes (40_token_alphabet.md R75). -/
def commandTable : List (Byte × Code) :=
  [(0x3E, 0), (0x3C, 1), (0x2B, 2), (0x2D, 3), (0x2E, 4), (0x2C, 5), (0x5B, 6), (0x5D, 7)]

/-- The two formatting marks with their codes (40_token_alphabet.md R77). -/
def formattingTable : List (Byte × Code) := [(0x09, 1), (0x0A, 2)]

theorem commandCode_eq_lookup (c : Byte) : commandCode c = commandTable.lookup c := by
  simp only [commandTable, lookup_cons_eq_ite, List.lookup_nil]
  rfl

theorem formattingCode_eq_lookup (c : Byte) : formattingCode c = formattingTable.lookup c := by
  simp only [formattingTable, lookup_cons_eq_ite, List.lookup_nil]
  rfl

/-- Settles O7: the functions of characters are lookups in the two tables, the functions of codes are read off. -/
theorem alphabetTables : Obligations.AlphabetTables :=
  ⟨commandCode_eq_lookup, rfl, formattingCode_eq_lookup, rfl⟩

/-! ## The inverse laws -/

theorem mem_commandTable_of_commandCode {c : Byte} {k : Code} (h : commandCode c = some k) : (c, k) ∈ commandTable :=
  mem_of_lookup_eq_some (commandCode_eq_lookup c ▸ h)

theorem mem_formattingTable_of_formattingCode {c : Byte} {k : Code} (h : formattingCode c = some k) :
    (c, k) ∈ formattingTable :=
  mem_of_lookup_eq_some (formattingCode_eq_lookup c ▸ h)

/-- Each of the eight codes is the code of its command. -/
theorem commandCode_codeCommand (k : Code) : commandCode (codeCommand k) = some k := by
  revert k
  decide

/-- `codeCommand` takes the code of each row of the command table back to its character. -/
theorem codeCommand_of_commandCode {c : Byte} {k : Code} (h : commandCode c = some k) : codeCommand k = c := by
  have hrows : ∀ row ∈ commandTable, codeCommand row.2 = row.1 := List.all_iff_forall_prop.mp rfl
  exact hrows (c, k) (mem_commandTable_of_commandCode h)

/-- `codeFormatting` takes the code of each formatting mark back to its character, and the code is not the pad's. -/
theorem codeFormatting_of_formattingCode {c : Byte} {k : Code} (h : formattingCode c = some k) :
    codeFormatting k = some c ∧ k ≠ 0 := by
  have hrows : ∀ row ∈ formattingTable, codeFormatting row.2 = some row.1 ∧ row.2 ≠ 0 := List.all_iff_forall_prop.mp rfl
  exact hrows (c, k) (mem_formattingTable_of_formattingCode h)

/-- A code with a formatting mark is that of TAB or of NL. -/
theorem formattingCode_of_codeFormatting {k : Code} {c : Byte} (h : codeFormatting k = some c) :
    formattingCode c = some k := by
  unfold codeFormatting at h
  split at h
  case isTrue htab =>
    obtain rfl := Option.some.inj h
    exact htab ▸ rfl
  case isFalse =>
    split at h
    case isTrue hnl =>
      obtain rfl := Option.some.inj h
      exact hnl ▸ rfl
    case isFalse => cases h

/-- No formatting mark is a command. -/
theorem commandCode_eq_none_of_formattingCode {c : Byte} {k : Code} (h : formattingCode c = some k) :
    commandCode c = none := by
  have hrows : ∀ row ∈ formattingTable, commandCode row.1 = none := List.all_iff_forall_prop.mp rfl
  exact hrows (c, k) (mem_formattingTable_of_formattingCode h)

theorem commandCode_eq_none_or_formattingCode_eq_none (c : Byte) : commandCode c = none ∨ formattingCode c = none := by
  cases h : formattingCode c with
  | none => exact .inr rfl
  | some k => exact .inl (commandCode_eq_none_of_formattingCode h)

/-- Settles O8: from a character by the rows of its table, from a code by the eight codes; no row is in both tables. -/
theorem alphabetIsInverse : Obligations.AlphabetIsInverse :=
  ⟨commandCode_codeCommand, fun _ _ => codeCommand_of_commandCode, fun _ _ => codeFormatting_of_formattingCode,
    fun _ _ => formattingCode_of_codeFormatting, commandCode_eq_none_or_formattingCode_eq_none⟩

end Sys2Proof.Proofs
end

section
/-! The decode direction: the 16 tokens (41_decoder.md R88 to R104) and the end of a decode run (R105). -/

namespace Sys2Proof.Proofs

open Sys2Proof.Machine Sys2Proof.Safety

/-! ## What a token gives, by its flag -/

/-- A token with a clear flag gives the command of its payload, whatever `LOSSY` is (40_token_alphabet.md R82). -/
theorem decChar_mkToken_zero (p : Code) (lossy : Bool) : decChar (mkToken 0 p) lossy = some (codeCommand p) := by
  simp [decChar, flagOf_mkToken, payloadOf_mkToken]

/-- A token with a set flag gives a command with `LOSSY = 1`, a formatting mark or nothing with `LOSSY = 0`
(40_token_alphabet.md R82). -/
theorem decChar_mkToken_one (p : Code) (lossy : Bool) :
    decChar (mkToken 1 p) lossy = if lossy then some (codeCommand p) else codeFormatting p := by
  cases lossy <;> simp [decChar, flagOf_mkToken, payloadOf_mkToken]

/-! ## The common step -/

/-- The conditional part of the common decode step: append a character if there is one (41_decoder.md R88). -/
def appendIfAny (ch : Option Byte) (s : State) : State :=
  match ch with
  | some c => appendChar c s
  | none => s

/-- The eight payloads. -/
theorem code_cases (p : Code) : p = 0 ∨ p = 1 ∨ p = 2 ∨ p = 3 ∨ p = 4 ∨ p = 5 ∨ p = 6 ∨ p = 7 := by
  revert p
  decide

/-- The command tokens, one row a payload (41_decoder.md R89 to R96). -/
theorem exec_decodeTok_mkToken_zero (p : Code) (s : State) :
    exec (decodeTok (mkToken 0 p)) s = .next (advance 4 (appendChar (codeCommand p) s)) := by
  rcases code_cases p with rfl | rfl | rfl | rfl | rfl | rfl | rfl | rfl <;> rfl

/-- The flagged tokens, one row a payload: the two marks choose the character by `LOSSY`, the pad and the no-ops choose
whether to append (41_decoder.md R97 to R104). -/
theorem exec_decodeTok_mkToken_one (p : Code) (s : State) : exec (decodeTok (mkToken 1 p)) s =
    .next (advance 4 (appendIfAny (if s.lossy then some (codeCommand p) else codeFormatting p) s)) := by
  rw [apply_ite (appendIfAny · s)]
  rcases code_cases p with rfl | rfl | rfl | rfl | rfl | rfl | rfl | rfl
  -- payloads 1 and 2, the two marks
  case inr.inl | inr.inr.inl => exact congrArg (fun u => Host.Outcome.next (advance 4 u)) (apply_ite (appendChar · s) ..)
  all_goals rfl

/-- Every token executes the common decode step (41_decoder.md R88). -/
theorem exec_decodeTok (t : Token) (s : State) :
    exec (decodeTok t) s = .next (advance 4 (appendIfAny (decChar t s.lossy) s)) := by
  have hflag : flagOf t = 0 ∨ flagOf t = 1 := BitVec.eq_zero_or_eq_one (flagOf t)
  rw [← mkToken_flagOf_payloadOf t]
  rcases hflag with hflag | hflag
  · rw [hflag, decChar_mkToken_zero, exec_decodeTok_mkToken_zero]
    rfl
  · rw [hflag, decChar_mkToken_one, exec_decodeTok_mkToken_one]

/-- Settles O20: by the flag of the token, then with and without a character. -/
theorem everyTokenIsTheCommonStep : Obligations.EveryTokenIsTheCommonStep := by
  intro t s
  rw [exec_decodeTok]
  cases decChar t s.lossy <;> rfl

/-! ## The 16 rows -/

/-- The row of a token that gives a character. -/
theorem exec_of_decChar_eq_some {t : Token} {i : Instr} {ch : Byte} {s : State} (hd : decode (.tok t) = .instr i)
    (hch : decChar t s.lossy = some ch) : exec i s = .next (afterAppend ch s) := by
  obtain rfl := Decoded.instr.inj hd
  rw [exec_decodeTok, hch]
  rfl

/-- The row of a token that gives none. -/
theorem exec_of_decChar_eq_none {t : Token} {i : Instr} {s : State} (hd : decode (.tok t) = .instr i)
    (hch : decChar t s.lossy = none) : exec i s = .next { s with cur := s.cur + 4 } := by
  obtain rfl := Decoded.instr.inj hd
  rw [exec_decodeTok, hch]
  rfl

/-- Settles O16: each row is the common step at its token, which gives its character for both values of `LOSSY`. -/
theorem commandTokensAppend : Obligations.CommandTokensAppend := by
  intro p hp
  have hrow : decode (.tok p.2.1) = .instr p.1 ∧ ∀ lossy, decChar p.2.1 lossy = some p.2.2 := by
    revert p
    decide
  obtain ⟨hd, hch⟩ := hrow
  exact ⟨hd, fun s => exec_of_decChar_eq_some hd (hch s.lossy)⟩

/-- Settles O17: each row is the common step at its token, which gives a character with `LOSSY = 1` only. -/
theorem padAndNoopTokens : Obligations.PadAndNoopTokens := by
  intro p hp
  have hrow : decode (.tok p.2.1) = .instr p.1 ∧ decChar p.2.1 false = none ∧ decChar p.2.1 true = some p.2.2 := by
    revert p
    decide
  obtain ⟨hd, hnone, hsome⟩ := hrow
  exact ⟨hd, fun s => ⟨fun hl => exec_of_decChar_eq_none hd (hl ▸ hnone),
    fun hl => exec_of_decChar_eq_some hd (hl ▸ hsome)⟩⟩

/-- Settles O18: both rows are the common step at their tokens, which give a character for each value of `LOSSY`. -/
theorem tabAndNewlineTokens : Obligations.TabAndNewlineTokens := by
  have htab : decode (.tok 0x9) = .instr .dTab := rfl
  have hnl : decode (.tok 0xA) = .instr .dNl := rfl
  refine ⟨htab, hnl, fun s => ⟨fun hl => ?_, fun hl => ?_⟩⟩
  · exact ⟨exec_of_decChar_eq_some htab (hl ▸ rfl), exec_of_decChar_eq_some hnl (hl ▸ rfl)⟩
  · exact ⟨exec_of_decChar_eq_some htab (hl ▸ rfl), exec_of_decChar_eq_some hnl (hl ▸ rfl)⟩

/-! ## The end of input -/

/-- `D_EOS` sets the status bits and nothing else (41_decoder.md R105). -/
theorem exec_dEos (s : State) : exec .dEos s = .next { s with busy := false, done := true } := rfl

/-- Settles O19: at `8 * IN_LEN` the item fetched is the end of input, whose row is `D_EOS`. -/
theorem decodeEndOfInput : Obligations.DecodeEndOfInput := by
  refine fun s => ⟨exec_dEos s, fun hb hmode hcur => ?_⟩
  have hend : s.cur = endOf s := by simp [endOf, hmode, hcur]
  have hitem : fetchItem s = .eos .decode := hmode ▸ fetchItem_at_end hend
  exact (engineStep_of_decode_fetchItem hb (hitem ▸ rfl)).trans (exec_dEos s)

end Sys2Proof.Proofs
end

section
/-! The encode direction: the nibble packer (42_encoder.md R125, R126, R128), the characters (R111 to R124) and the end
of an encode run (R127). -/

namespace Sys2Proof.Proofs

open Sys2Proof.Machine Sys2Proof.Safety Sys2Proof.Laws

/-! ## The packer -/

/-- A token in the high half is a byte with an empty low half. -/
theorem setWidth_shiftLeft_eq_mkByte (t : Token) : t.setWidth 8 <<< 4 = mkByte t 0x0 :=
  BitVec.or_zero.symm

/-- The record of a placement in the high half: the token and an empty low half (42_encoder.md R128). -/
theorem placedRecord_fillHalf_awaitingHigh {t : Token} {c : Byte} {s : State} (h : s.half = .awaitingHigh) :
    placedRecord c false (fillHalf t s) = .placed c t 0x0 .awaitingLow false := by
  simp only [placedRecord, fillHalf_awaitingHigh h, setWidth_shiftLeft_eq_mkByte, hiNibble_mkByte, loNibble_mkByte]

/-- A placement in the high half, field by field (42_encoder.md R125). -/
theorem place_eq_of_awaitingHigh {t : Token} {c : Byte} {s : State} (h : s.half = .awaitingHigh) :
    place t c s = { s with
      acc := t.setWidth 8 <<< 4
      half := .awaitingLow
      dbg := dbgWith (.placed c t 0x0 .awaitingLow false) s } := by
  rw [place_awaitingHigh h, placedRecord_fillHalf_awaitingHigh h, fillHalf_awaitingHigh h]
  rfl

/-- A placement in the low half with the flush it causes, field by field (42_encoder.md R125, R126). -/
theorem place_eq_of_awaitingLow {t : Token} {c b : Byte} {s : State} (h : s.half = .awaitingLow)
    (hb : b = s.acc ||| t.setWidth 8) :
    place t c s = { s with
      acc := 0x00
      half := .awaitingHigh
      outCells := Memory.write s.outCells s.outLen b
      outLen := s.outLen + 1
      dbg := dbgWith (.placed c (hiNibble b) (loNibble b) .awaitingHigh true) s } := by
  rw [place_awaitingLow h, fillHalf_awaitingLow h, ← hb]
  rfl

/-- Settles O22: one equation a half. -/
theorem placeAndFlush : Obligations.PlaceAndFlush := by
  intro t c s
  exact ⟨place_eq_of_awaitingHigh, fun h b hb => place_eq_of_awaitingLow h hb⟩

/-- A placement and the advance of `CUR` lead to the state the claims call `afterPlace`. -/
theorem advance_place (t : Token) (c : Byte) (s : State) : advance 1 (place t c s) = afterPlace t c s := by
  cases h : s.half with
  | awaitingHigh =>
    rw [place_eq_of_awaitingHigh h]
    simp only [afterPlace, h]
    rfl
  | awaitingLow =>
    rw [place_eq_of_awaitingLow h rfl]
    simp only [afterPlace, h]
    rfl

/-! ## What a character gives, by its class -/

theorem encTok_of_commandCode {c : Byte} {k : Code} (h : commandCode c = some k) (lossy : Bool) :
    encTok c lossy = some (mkToken 0 k) := by
  simp only [encTok, h]

theorem encTok_of_formattingCode {c : Byte} {k : Code} (h : formattingCode c = some k) (lossy : Bool) :
    encTok c lossy = if lossy then none else some (mkToken 1 k) := by
  simp only [encTok, commandCode_eq_none_of_formattingCode h, h]

theorem encTok_of_no_code {c : Byte} (hcmd : commandCode c = none) (hfmt : formattingCode c = none) (lossy : Bool) :
    encTok c lossy = none := by
  simp only [encTok, hcmd, hfmt]

/-- A byte that is none of the eleven takes the default row (30_encoding.md R64). -/
theorem decodeChar_of_not_mem {c : Byte} (h : c ∉ recognisedChars) : decodeChar c = .eSkip c := by
  simp only [recognisedChars, List.mem_cons, List.not_mem_nil, or_false, not_or] at h
  simp only [decodeChar, h, if_false]

/-- Of the eleven recognised characters only CR is neither a command nor a formatting mark. -/
theorem eq_cr_of_mem_of_no_code {c : Byte} (hc : c ∈ recognisedChars) (hcmd : commandCode c = none)
    (hfmt : formattingCode c = none) : c = 0x0D := by
  revert c
  decide

/-! ## The common step -/

/-- The conditional part of the common encode step: place a token if there is one (42_encoder.md R111). -/
def placeIfAny (t : Option Token) (c : Byte) (s : State) : State :=
  match t with
  | some t => place t c s
  | none => s

/-- The command characters, one row a code (42_encoder.md R113 to R120). -/
theorem exec_decodeChar_codeCommand (k : Code) (s : State) :
    exec (decodeChar (codeCommand k)) s = .next (advance 1 (place (mkToken 0 k) (codeCommand k) s)) := by
  rcases code_cases k with rfl | rfl | rfl | rfl | rfl | rfl | rfl | rfl <;> rfl

/-- The two formatting marks choose by `LOSSY` whether to place (42_encoder.md R121, R122). -/
theorem exec_decodeChar_of_formattingCode {c : Byte} {k : Code} (h : formattingCode c = some k) (s : State) :
    exec (decodeChar c) s = .next (advance 1 (if s.lossy then s else place (mkToken 1 k) c s)) := by
  have hrow : (c, k) = (0x09, 1) ∨ (c, k) = (0x0A, 2) := by
    simpa [formattingTable] using mem_formattingTable_of_formattingCode h
  rcases hrow with hrow | hrow <;> cases hrow <;> rfl

/-- CR and the foreign bytes only advance `CUR` (42_encoder.md R123, R124). -/
theorem exec_decodeChar_of_no_code {c : Byte} (hcmd : commandCode c = none) (hfmt : formattingCode c = none)
    (s : State) : exec (decodeChar c) s = .next (advance 1 s) := by
  by_cases hc : c ∈ recognisedChars
  · obtain rfl := eq_cr_of_mem_of_no_code hc hcmd hfmt
    rfl
  · rw [decodeChar_of_not_mem hc]
    rfl

/-- Every character executes the common encode step (42_encoder.md R111). -/
theorem exec_decodeChar (c : Byte) (s : State) :
    exec (decodeChar c) s = .next (advance 1 (placeIfAny (encTok c s.lossy) c s)) := by
  cases hcmd : commandCode c with
  | some k =>
    rw [encTok_of_commandCode hcmd, ← codeCommand_of_commandCode hcmd, exec_decodeChar_codeCommand]
    rfl
  | none =>
    cases hfmt : formattingCode c with
    | some k =>
      rw [encTok_of_formattingCode hfmt, exec_decodeChar_of_formattingCode hfmt, apply_ite (placeIfAny · c s)]
      rfl
    | none =>
      rw [encTok_of_no_code hcmd hfmt, exec_decodeChar_of_no_code hcmd hfmt]
      rfl

/-- A character that gives a token places it. -/
theorem exec_decodeChar_of_encTok_eq_some {c : Byte} {t : Token} {s : State} (h : encTok c s.lossy = some t) :
    exec (decodeChar c) s = .next (afterPlace t c s) := by
  rw [exec_decodeChar, h, ← advance_place]
  rfl

/-- A character that gives no token changes nothing but `CUR`. -/
theorem exec_decodeChar_of_encTok_eq_none {c : Byte} {s : State} (h : encTok c s.lossy = none) :
    exec (decodeChar c) s = .next { s with cur := s.cur + 1 } := by
  rw [exec_decodeChar, h]
  rfl

/-- Settles O28: by the class of the character, then with and without a token. -/
theorem everyCharIsTheCommonStep : Obligations.EveryCharIsTheCommonStep := by
  intro c s
  cases h : encTok c s.lossy with
  | some t => exact exec_decodeChar_of_encTok_eq_some h
  | none => exact exec_decodeChar_of_encTok_eq_none h

/-! ## The rows -/

/-- Settles O24: each row is the common step at its character, which gives its token for both values of `LOSSY`. -/
theorem commandCharsPlace : Obligations.CommandCharsPlace := by
  intro p hp
  have hrow : decodeChar p.2.1 = p.1 ∧ ∀ lossy, encTok p.2.1 lossy = some p.2.2 := by
    revert p
    decide
  obtain ⟨hd, htok⟩ := hrow
  exact ⟨congrArg Decoded.instr hd, fun s => hd ▸ exec_decodeChar_of_encTok_eq_some (htok s.lossy)⟩

/-- Settles O25: both rows are the common step at their characters, which give a token with `LOSSY = 0` only. -/
theorem tabAndNewlineChars : Obligations.TabAndNewlineChars := by
  refine ⟨rfl, rfl, fun s => ⟨fun hl => ?_, fun hl => ?_⟩⟩
  · exact ⟨exec_decodeChar_of_encTok_eq_some (c := 0x09) (hl ▸ rfl),
      exec_decodeChar_of_encTok_eq_some (c := 0x0A) (hl ▸ rfl)⟩
  · exact ⟨exec_decodeChar_of_encTok_eq_none (c := 0x09) (hl ▸ rfl),
      exec_decodeChar_of_encTok_eq_none (c := 0x0A) (hl ▸ rfl)⟩

/-- Settles O26: the default row is taken by every byte that is none of the eleven, and neither row looks at `LOSSY`. -/
theorem ignoredCharsAreSkipped : Obligations.IgnoredCharsAreSkipped :=
  ⟨rfl, fun _ => rfl, fun _ hc => congrArg Decoded.instr (decodeChar_of_not_mem hc), fun _ _ => rfl⟩

/-! ## The end of input -/

/-- `E_EOS` completes the last byte, then ends the run (42_encoder.md R127). -/
theorem exec_eEos (s : State) : exec .eEos s = .next (finishRun (padLastByte s)) := rfl

/-- Settles O27: the padding by `HALF`; at `IN_LEN` the item fetched is the end of input, whose row is `E_EOS`. -/
theorem encodeEndOfInput : Obligations.EncodeEndOfInput := by
  refine fun s => ⟨fun hhalf => ?_, fun hhalf => ?_, fun hb hmode hcur => ?_⟩
  · rw [exec_eEos, padLastByte_awaitingHigh hhalf]
    rfl
  · rw [exec_eEos, padLastByte_awaitingLow hhalf]
    rfl
  · have hend : s.cur = endOf s := by simp only [endOf, hmode, hcur]
    have hitem : fetchItem s = .eos .encode := hmode ▸ fetchItem_at_end hend
    exact engineStep_of_decode_fetchItem hb (hitem ▸ rfl)

end Sys2Proof.Proofs
end

section
/-! What does not happen: the engine outside a run (60_exceptions.md R149), the trace without `DEBUG` (R147) and the host
actions without a meaning (R137). -/

namespace Sys2Proof.Proofs

open Sys2Proof.Machine

/-! ## The engine outside a run -/

/-- In `IDLE` and `DONE` the engine performs no step (60_exceptions.md R149). -/
theorem engineStep_of_not_busy {s : State} (hidle : s.busy = false) : engineStep s = .next s := by
  simp only [engineStep, hidle, Bool.false_eq_true, if_false]

/-- With nothing scheduled the engine moves (log 1). -/
theorem step_of_schedule_nil {s : State} (hs : s.schedule = []) : step s = engineStep s := by
  simp only [step, stepAgents, hs]

/-- Settles O14: with nothing scheduled the machine's step is the engine's, and that is none. -/
theorem idleAndDonePerformNoStep : Obligations.IdleAndDonePerformNoStep := by
  intro s hidle
  have hengine : engineStep s = .next s := engineStep_of_not_busy hidle
  exact ⟨hengine, fun hs => (step_of_schedule_nil hs).trans hengine⟩

/-! ## The trace -/

/-- With `DEBUG = 1` a record is appended (60_exceptions.md R147). -/
theorem trace_of_debug {r : TraceRecord} {s : State} (hd : s.debug = true) :
    trace r s = { s with dbg := s.dbg ++ [r] } := by
  rw [trace, if_pos hd]

/-- With `DEBUG = 0` a trace does nothing (60_exceptions.md R147). -/
theorem trace_of_not_debug {r : TraceRecord} {s : State} (hd : s.debug = false) : trace r s = s := by
  rw [trace, if_neg (by simp [hd])]

/-- Settles O38: one equation a value of `DEBUG`, whichever shape the record has. -/
theorem traceRecords : Obligations.TraceRecords :=
  fun _ _ => ⟨trace_of_debug, trace_of_not_debug⟩

/-! ## `START` without a meaning -/

/-- A second `START` within a run is refused, whatever bits 7:1 of `CMD` are (60_exceptions.md R137). -/
theorem exec_start_of_busy {s : State} (hb : s.busy = true) (g : BitVec 7) :
    exec (.start g) s = .refused .startWhileBusy := by
  simp only [exec, execStart, hb, if_true]

/-- A longer input than `IN_CAP` does not fit. -/
theorem inFits_eq_false_of_lt {c n : Nat} (hlt : c < n) : Config.inFits (some c) n = false :=
  decide_eq_false (Nat.not_le.2 hlt)

/-- `START` over an input that does not fit its buffer is refused (60_exceptions.md R137). -/
theorem exec_start_of_not_inFits {s : State} (hidle : s.busy = false)
    (hfits : Config.inFits s.inCap s.inLen = false) (g : BitVec 7) :
    exec (.start g) s = .refused .inputLongerThanBuffer := by
  simp only [exec, execStart, hidle, hfits, Bool.false_eq_true, if_false]

/-! ## Host writes within a run -/

theorem hostWriteCtrl_of_busy {s : State} (hb : s.busy = true) (v : Nat) :
    hostWriteCtrl v s = .refused .hostWriteWhileBusy := by
  rw [hostWriteCtrl, if_pos hb]

theorem hostWriteInLen_of_busy {s : State} (hb : s.busy = true) (v : Nat) :
    hostWriteInLen v s = .refused .hostWriteWhileBusy := by
  rw [hostWriteInLen, if_pos hb]

theorem hostWriteIn_of_busy {s : State} (hb : s.busy = true) (i : Nat) (v : Byte) :
    hostWriteIn i v s = .refused .hostWriteWhileBusy := by
  rw [hostWriteIn, if_pos hb]

/-! ## Host reads of a result that is not there -/

theorem hostReadOut_of_busy {s : State} (hb : s.busy = true) (j : Nat) :
    hostReadOut j s = .refused .hostReadWhileBusy := by
  rw [hostReadOut, if_pos hb]

/-- Register 4, `OUT_LEN`, has no meaning to the host within a run (60_exceptions.md R137). -/
theorem hostReadReg_outLen_of_busy {s : State} (hb : s.busy = true) :
    hostReadReg 4 s = .refused .hostReadWhileBusy := by
  simp only [hostReadReg, hb, if_true]

/-- Outside a run, `OUT` has no value at or above `OUT_LEN` (60_exceptions.md R137; log 5). -/
theorem hostReadOut_of_outLen_le {s : State} {j : Nat} (hidle : s.busy = false) (hj : s.outLen ≤ j) :
    hostReadOut j s = .refused .outCellWithoutValue := by
  simp only [hostReadOut, hidle, Bool.false_eq_true, if_false, hj.not_gt]

/-- Settles O32: one refusal an item of the rule, first within a run, then outside one. -/
theorem hostViolationsAreRefused : Obligations.HostViolationsAreRefused := by
  refine fun s => ⟨fun hb => ?_, fun hidle => ⟨fun c g hcap hlt => ?_, fun j hj => hostReadOut_of_outLen_le hidle hj⟩⟩
  · exact ⟨hostWriteCtrl_of_busy hb, hostWriteInLen_of_busy hb, hostWriteIn_of_busy hb, exec_start_of_busy hb,
      hostReadOut_of_busy hb, hostReadReg_outLen_of_busy hb⟩
  · have hfits : Config.inFits s.inCap s.inLen = false := hcap ▸ inFits_eq_false_of_lt hlt
    exact exec_start_of_not_inFits hidle hfits g

end Sys2Proof.Proofs
end

section
/-! A run to its end: every step of the engine advances `CUR` by the stride of the direction or, at `END`, ends the run
(70_reset_and_hazards.md R166). -/

namespace Sys2Proof.Proofs

open Sys2Proof.Machine Sys2Proof.Safety

/-! ## Several steps -/

/-- A run of `j + k` steps is a run of `j` steps continued for `k`. -/
theorem runSteps_add {j : Nat} {s u : State} (h : runSteps j s = .next u) (k : Nat) :
    runSteps (j + k) s = runSteps k u := by
  induction j generalizing s with
  | zero =>
    cases h
    rw [Nat.zero_add]
  | succ j ih =>
    rw [Nat.succ_add]
    cases hstep : step s with
    | next t =>
      simp only [runSteps, hstep] at h ⊢
      exact ih h
    | fault f => simp [runSteps, hstep] at h
    | refused r => simp [runSteps, hstep] at h

theorem runSteps_succ_of_step {s t : State} (h : step s = .next t) (k : Nat) : runSteps (k + 1) s = runSteps k t := by
  simp only [runSteps, h]

theorem runSteps_one_of_step {s t : State} (h : step s = .next t) : runSteps 1 s = .next t :=
  runSteps_succ_of_step h 0

/-! ## The stride and the steps left -/

/-- By how much one item advances `CUR` (10_state.md R15). -/
def stride : Direction → Nat
  | .encode => 1
  | .decode => 4

theorem stride_pos (dir : Direction) : 0 < stride dir := by
  cases dir <;> simp [stride]

/-- The steps left are the items left and the end-of-input step, in both directions. -/
theorem stepsLeft_eq (s : State) : stepsLeft s = (endOf s - s.cur) / stride s.mode + 1 := by
  cases hmode : s.mode <;> simp [stepsLeft, endOf, stride, hmode]

/-- The end-of-input step at least is left. -/
theorem stepsLeft_pos (s : State) : 0 < stepsLeft s :=
  stepsLeft_eq s ▸ Nat.succ_pos _

/-- `END` is a function of the settings. -/
theorem endOf_eq_of_sameSettings {s t : State} (h : SameSettings s t) : endOf t = endOf s := by
  obtain ⟨hmode, -, -, hinLen, -⟩ := h
  simp only [endOf, hmode, hinLen]

/-! ## One step of the engine -/

@[simp] theorem appendIfAny_cur (ch : Option Byte) (s : State) : (appendIfAny ch s).cur = s.cur := by
  cases ch <;> rfl
@[simp] theorem appendIfAny_busy (ch : Option Byte) (s : State) : (appendIfAny ch s).busy = s.busy := by
  cases ch <;> rfl
@[simp] theorem placeIfAny_cur (t : Option Token) (c : Byte) (s : State) : (placeIfAny t c s).cur = s.cur := by
  cases t <;> simp [placeIfAny]
@[simp] theorem placeIfAny_busy (t : Option Token) (c : Byte) (s : State) : (placeIfAny t c s).busy = s.busy := by
  cases t <;> simp [placeIfAny]

/-- In an encode run the engine's step below `END` is the common encode step at the character at `CUR`. -/
theorem engineStep_encode {s : State} (hb : s.busy = true) (hlt : s.cur < endOf s) (hmode : s.mode = .encode) :
    engineStep s = .next (advance 1 (placeIfAny (encTok (inByte s s.cur) s.lossy) (inByte s s.cur) s)) := by
  rw [← exec_decodeChar]
  exact engineStep_of_decode_fetchItem hb (fetchItem_encode hlt hmode ▸ rfl)

/-- In a decode run the engine's step below `END` is the common decode step at the token at `CUR`. -/
theorem engineStep_decode {s : State} (hb : s.busy = true) (hlt : s.cur < endOf s) (hmode : s.mode = .decode) :
    engineStep s = .next (advance 4 (appendIfAny (decChar (fetchToken s) s.lossy) s)) := by
  rw [← exec_decodeTok]
  exact engineStep_of_decode_fetchItem hb (fetchItem_decode hlt hmode ▸ rfl)

/-- Below `END` the engine's step advances `CUR` by the stride, and the run goes on. -/
theorem engineStep_below_end {s : State} (hb : s.busy = true) (hlt : s.cur < endOf s) :
    ∃ t, engineStep s = .next t ∧ t.busy = true ∧ t.cur = s.cur + stride s.mode := by
  cases hmode : s.mode with
  | encode => exact ⟨_, engineStep_encode hb hlt hmode, by simp [hb], by simp [stride]⟩
  | decode => exact ⟨_, engineStep_decode hb hlt hmode, by simp [hb], by simp [stride]⟩

/-- At `END` the engine's step ends the run and leaves `CUR`. -/
theorem engineStep_at_end {s : State} (hb : s.busy = true) (hend : s.cur = endOf s) :
    ∃ t, engineStep s = .next t ∧ t.busy = false ∧ t.done = true ∧ t.cur = s.cur := by
  have hitem : fetchItem s = .eos s.mode := fetchItem_at_end hend
  have hexec : engineStep s = exec (decodeEos s.mode) s := engineStep_of_decode_fetchItem hb (hitem ▸ rfl)
  cases hmode : s.mode with
  | encode =>
    rw [hmode] at hexec
    exact ⟨_, hexec.trans (exec_eEos s), rfl, rfl, by simp⟩
  | decode =>
    rw [hmode] at hexec
    exact ⟨_, hexec.trans (exec_dEos s), rfl, rfl, rfl⟩

/-! ## The state between two steps of a run -/

/-- What holds between two steps of a run in which the engine alone moves: `CUR` is within the input, in decode mode at
a token (10_state.md R15). -/
structure InRun (s : State) : Prop where
  busy : s.busy = true
  alone : s.schedule = []
  within : s.cur ≤ endOf s
  aligned : s.mode = .decode → s.cur % 4 = 0

namespace InRun

/-- A multiple of the stride lies between `CUR` and `END`. -/
theorem stride_dvd {s : State} (h : InRun s) : stride s.mode ∣ endOf s - s.cur := by
  cases hmode : s.mode with
  | encode => exact Nat.one_dvd _
  | decode =>
    have haligned : s.cur % 4 = 0 := h.aligned hmode
    simp only [stride, endOf, hmode]
    omega

/-- Below `END` the step leads to the next state of the run, with one step less left. -/
theorem step_below_end {s : State} (h : InRun s) (hlt : s.cur < endOf s) :
    ∃ t, step s = .next t ∧ InRun t ∧ s.cur < t.cur ∧ endOf t = endOf s ∧ stepsLeft s = stepsLeft t + 1 := by
  obtain ⟨t, ht, hbusy, hcur⟩ := engineStep_below_end h.busy hlt
  have hset : SameSettings s t := engineStep_sameSettings ht
  have hend : endOf t = endOf s := endOf_eq_of_sameSettings hset
  obtain ⟨hmode, -, -, -, -, -, -, -, hsched, -⟩ := hset
  have hpos : 0 < stride s.mode := stride_pos s.mode
  have hroom : stride s.mode ≤ endOf s - s.cur := Nat.le_of_dvd (Nat.sub_pos_of_lt hlt) h.stride_dvd
  refine ⟨t, (step_of_schedule_nil h.alone).trans ht, ⟨hbusy, hsched.trans h.alone, by omega, fun hdec => ?_⟩,
    by omega, hend, ?_⟩
  · have hs : s.mode = .decode := hmode ▸ hdec
    rw [hcur, hs, stride, Nat.add_mod_right, h.aligned hs]
  · rw [stepsLeft_eq, stepsLeft_eq, hmode, hend, hcur, Nat.sub_add_eq, ← Nat.div_eq_sub_div hpos hroom]

/-- At `END` the step ends the run. -/
theorem step_at_end {s : State} (h : InRun s) (hend : s.cur = endOf s) :
    ∃ t, step s = .next t ∧ t.busy = false ∧ t.done = true ∧ t.cur = endOf s := by
  obtain ⟨t, ht, hbusy, hdone, hcur⟩ := engineStep_at_end h.busy hend
  exact ⟨t, (step_of_schedule_nil h.alone).trans ht, hbusy, hdone, hcur.trans hend⟩

/-- The step increases `CUR` or ends the run. -/
theorem step_progresses {s : State} (h : InRun s) :
    ∃ t, step s = .next t ∧ (s.cur < t.cur ∧ t.busy = true ∨ t.busy = false ∧ t.done = true) := by
  rcases h.within.lt_or_eq with hlt | hend
  · obtain ⟨t, ht, hrun, hcur, -⟩ := h.step_below_end hlt
    exact ⟨t, ht, .inl ⟨hcur, hrun.busy⟩⟩
  · obtain ⟨t, ht, hbusy, hdone, -⟩ := h.step_at_end hend
    exact ⟨t, ht, .inr ⟨hbusy, hdone⟩⟩

/-- One step is left exactly at `END`. -/
theorem stepsLeft_eq_one_iff {s : State} (h : InRun s) : stepsLeft s = 1 ↔ s.cur = endOf s := by
  refine ⟨fun hone => ?_, fun hend => ?_⟩
  · rcases h.within.lt_or_eq with hlt | hend
    · obtain ⟨t, -, -, -, -, hleft⟩ := h.step_below_end hlt
      have hpos : 0 < stepsLeft t := stepsLeft_pos t
      omega
    · exact hend
  · rw [stepsLeft_eq, hend, Nat.sub_self, Nat.zero_div]

/-! ## The whole run -/

/-- With steps left the run is still on, and each step so far has taken one off the count. -/
theorem runSteps_of_lt_stepsLeft {s : State} (h : InRun s) {k : Nat} (hk : k < stepsLeft s) :
    ∃ u, runSteps k s = .next u ∧ InRun u ∧ endOf u = endOf s ∧ stepsLeft s = stepsLeft u + k := by
  induction k generalizing s with
  | zero => exact ⟨s, rfl, h, rfl, rfl⟩
  | succ k ih =>
    have hne : s.cur ≠ endOf s := fun hend => by
      have hone : stepsLeft s = 1 := h.stepsLeft_eq_one_iff.2 hend
      omega
    obtain ⟨t, ht, hrun, -, hend, hleft⟩ := h.step_below_end (lt_of_le_of_ne h.within hne)
    obtain ⟨u, hu, hrunu, hendu, hleftu⟩ := ih hrun (by omega)
    exact ⟨u, (runSteps_succ_of_step ht k).trans hu, hrunu, hendu.trans hend, by omega⟩

/-- After exactly the steps left the run is `DONE`, with all of the input consumed. -/
theorem runSteps_stepsLeft {s : State} (h : InRun s) :
    ∃ t, runSteps (stepsLeft s) s = .next t ∧ t.busy = false ∧ t.done = true ∧ t.cur = endOf s := by
  obtain ⟨n, hn⟩ : ∃ n, stepsLeft s = n + 1 := Nat.exists_eq_add_one.2 (stepsLeft_pos s)
  obtain ⟨u, hu, hrun, hend, hleft⟩ := h.runSteps_of_lt_stepsLeft (k := n) (by omega)
  obtain ⟨t, ht, hbusy, hdone, hcur⟩ := hrun.step_at_end (hrun.stepsLeft_eq_one_iff.1 (by omega))
  refine ⟨t, ?_, hbusy, hdone, hcur.trans hend⟩
  rw [hn, runSteps_add hu, runSteps_one_of_step ht]

end InRun

/-- From its start a run takes one step an item, `IN_LEN` characters or `2 * IN_LEN` tokens, and the end-of-input step. -/
theorem stepsLeft_at_start {s : State} (hcur : s.cur = 0) :
    stepsLeft s = if s.mode = .encode then s.inLen + 1 else 2 * s.inLen + 1 := by
  cases hmode : s.mode with
  | encode => simp [stepsLeft, hmode, hcur]
  | decode =>
    simp only [stepsLeft, hmode, hcur, reduceCtorEq, if_false]
    omega

/-- Settles O48: the four clauses are the four facts above about the states of a run. -/
theorem everyRunReachesDone : Obligations.EveryRunReachesDone := by
  intro s hb hs hcur haligned
  have hrun : InRun s := ⟨hb, hs, hcur, haligned⟩
  refine ⟨hrun.step_progresses, ?_, fun k hk => ?_, stepsLeft_at_start⟩
  · exact hrun.runSteps_stepsLeft
  · obtain ⟨u, hu, hrunu, -⟩ := hrun.runSteps_of_lt_stepsLeft hk
    exact ⟨u, hu, hrunu.busy⟩

end Sys2Proof.Proofs
end

section
/-! The state after hardware reset (70_reset_and_hazards.md R150). -/

namespace Sys2Proof.Proofs

open Sys2Proof.Machine

/-- With the three settings at their reset values `CTRL` reads as 0 (10_state.md R16). -/
theorem ctrlWord_of_reset_settings {s : State} (hmode : s.mode = .encode) (hlossy : s.lossy = false)
    (hdebug : s.debug = false) : ctrlWord s = 0x00 := by
  rw [ctrlWord, hmode, hlossy, hdebug]
  rfl

/-- In `IDLE` both bits of `STATUS` are clear (10_state.md R22). -/
theorem statusWord_of_idle {s : State} (hbusy : s.busy = false) (hdone : s.done = false) : statusWord s = 0x00 := by
  rw [statusWord, hbusy, hdone]
  rfl

/-- Settles O40: both reset states list the values of the rule, and not being busy the engine does nothing. -/
theorem resetValues : Obligations.ResetValues := by
  refine ⟨fun t ht => ?_, (step_of_schedule_nil rfl).trans (engineStep_of_not_busy rfl)⟩
  rcases ht with rfl | ⟨s, rfl⟩ <;>
    exact ⟨rfl, rfl, rfl, ctrlWord_of_reset_settings rfl rfl rfl, rfl, rfl, rfl, statusWord_of_idle rfl rfl, rfl, rfl,
      rfl, rfl, rfl, engineStep_of_not_busy rfl⟩

end Sys2Proof.Proofs
end

section
/-! The encodings: decoding and encoding are inverse to each other, and no encoding is illegal (30_encoding.md R53 to
R67). -/

namespace Sys2Proof.Proofs

open Sys2Proof.Machine Sys2Proof.Laws

/-! ## From the instruction to its item and back -/

/-- A `CMD8` value is its bits 7:1 followed by the field `start` (30_encoding.md R57). -/
theorem decodeCmd_append (g : BitVec 7) (b : BitVec 1) :
    decodeCmd (g ++ b) = if b = 1 then .instr (.start g) else .noOperation := by
  have hstart : (g ++ b).extractLsb' 0 1 = b := BitVec.extractLsb'_append_eq_right
  have hrest : (g ++ b).extractLsb' 1 7 = g := BitVec.extractLsb'_append_eq_left
  rw [decodeCmd, hstart, hrest]

/-- Settles O1: the rows with an operand by the lemmas for `E_SKIP` and `START`, every other row by its word. -/
theorem decodeUndoesEncode : Obligations.DecodeUndoesEncode := by
  intro i hwf
  cases i
  case eSkip c =>
    have hc : c ∉ recognisedChars := by simpa [WellFormed, Instr.wf] using hwf
    exact congrArg Decoded.instr (decodeChar_of_not_mem hc)
  case start g => exact decodeCmd_append g 1
  all_goals rfl

/-! ## From the item to its instruction and back -/

theorem encode_decodeTok (t : Token) : WellFormed (decodeTok t) ∧ encode (decodeTok t) = .tok t := by
  revert t
  decide

theorem encode_decodeChar (c : Byte) : WellFormed (decodeChar c) ∧ encode (decodeChar c) = .char c := by
  by_cases hc : c ∈ recognisedChars
  · revert c
    decide
  · rw [decodeChar_of_not_mem hc]
    exact ⟨by simpa [WellFormed, Instr.wf] using hc, rfl⟩

/-- A `CMD8` value that decodes to an instruction is a `START` with the bits 7:1 of the value. -/
theorem encode_of_decodeCmd {v : Byte} {i : Instr} (h : decodeCmd v = .instr i) :
    WellFormed i ∧ encode i = .cmd v := by
  have hparts : v.extractLsb' 1 7 ++ v.extractLsb' 0 1 = v := BitVec.extractLsb'_append_extractLsb'
  rw [← hparts, decodeCmd_append] at h
  split at h
  case isTrue hstart =>
    cases h
    exact ⟨rfl, congrArg Item.cmd (hstart ▸ hparts)⟩
  case isFalse => cases h

/-- Settles O2: one lemma a format. -/
theorem encodeUndoesDecode : Obligations.EncodeUndoesDecode := by
  intro x i h
  cases x with
  | tok t => exact Decoded.instr.inj h ▸ encode_decodeTok t
  | char c => exact Decoded.instr.inj h ▸ encode_decodeChar c
  | eos dir => cases dir <;> cases h <;> exact ⟨rfl, rfl⟩
  | cmd v => exact encode_of_decodeCmd h

/-! ## No illegal encoding -/

/-- The format of an instruction's row is that of the item it is encoded as (30_encoding.md R53). -/
theorem format_encode (i : Instr) : (encode i).format = i.format := by
  cases i <;> rfl

/-- Bit 0 of a `CMD8` value as a field of one bit. -/
theorem startField_eq_one_iff (v : Byte) : v.extractLsb' 0 1 = 1 ↔ v.getLsbD 0 = true := by
  have hbit : (v.extractLsb' 0 1).getLsbD 0 = v.getLsbD 0 := by simp
  rcases BitVec.eq_zero_or_eq_one (v.extractLsb' 0 1) with h | h <;> rw [← hbit, h] <;> decide

/-- Settles O3: tokens and characters by the common step of their direction, `CMD8` values by bit 0. -/
theorem everyEncodingIsDefined : Obligations.EveryEncodingIsDefined := by
  refine ⟨fun t => ?_, fun c => ?_, fun v => ?_, fun _ _ _ => rfl⟩
  · obtain ⟨hwf, henc⟩ := encode_decodeTok t
    exact ⟨_, rfl, hwf, by rw [← format_encode, henc]; rfl, fun s => ⟨_, exec_decodeTok t s⟩⟩
  · obtain ⟨hwf, henc⟩ := encode_decodeChar c
    exact ⟨_, rfl, hwf, by rw [← format_encode, henc]; rfl, fun s => ⟨_, exec_decodeChar c s⟩⟩
  · simp only [decode, decodeCmd, startField_eq_one_iff]

/-! ## The rows are disjoint -/

/-- `E_SKIP` is the default row: it is taken by no recognised character, and its operand is the character itself. -/
theorem decodeChar_eq_eSkip_iff (c d : Byte) : decodeChar c = .eSkip d ↔ d = c ∧ c ∉ recognisedChars := by
  constructor
  · intro h
    obtain ⟨hwf, henc⟩ := encode_decodeChar c
    rw [h] at hwf henc
    obtain rfl : d = c := Item.char.inj henc
    exact ⟨rfl, by simpa [WellFormed, Instr.wf] using hwf⟩
  · rintro ⟨rfl, hc⟩
    exact decodeChar_of_not_mem hc

theorem decodeTok_injective {t u : Token} (h : decodeTok t = decodeTok u) : t = u :=
  Item.tok.inj (by rw [← (encode_decodeTok t).2, h, (encode_decodeTok u).2])

/-- The values below 256 of the recognised characters are those of the list, in another order. -/
theorem filter_recognised_perm :
    ((List.range 256).filter (fun n => !(Instr.eSkip (BitVec.ofNat 8 n)).wf)).Perm
      (recognisedChars.map BitVec.toNat) := by
  refine (List.perm_ext_iff_of_nodup (List.nodup_range.filter _) (by decide)).2 fun n => ?_
  simp only [List.mem_filter, List.mem_range, Instr.wf, Bool.not_not, List.contains_iff_mem, List.mem_map]
  constructor
  · rintro ⟨hlt, hmem⟩
    exact ⟨_, hmem, by simpa using hlt⟩
  · rintro ⟨c, hc, rfl⟩
    exact ⟨c.isLt, by simpa using hc⟩

/-- Of the 256 values all but the eleven are foreign bytes. -/
theorem length_filter_foreign :
    ((List.range 256).filter (fun n => (Instr.eSkip (BitVec.ofNat 8 n)).wf)).length = 245 := by
  have hsplit := List.length_eq_length_filter_add (l := List.range 256) (fun n => (Instr.eSkip (BitVec.ofNat 8 n)).wf)
  have heleven : (recognisedChars.map BitVec.toNat).length = 11 := rfl
  rw [filter_recognised_perm.length_eq, heleven, List.length_range] at hsplit
  omega

/-- Settles O4: the eleven recognised characters by evaluation, the rows by the encoder. -/
theorem skipIsTheDefaultRow : Obligations.SkipIsTheDefaultRow :=
  ⟨by decide, rfl, decodeChar_eq_eSkip_iff, length_filter_foreign, fun _ _ => decodeTok_injective⟩

/-- Settles O5: each word is decoded by evaluation. -/
theorem specWordsDecode : Obligations.SpecWordsDecode :=
  ⟨rfl, rfl, rfl, rfl, rfl, rfl, rfl, rfl, rfl, rfl, rfl⟩

end Sys2Proof.Proofs
end

section
/-! The two ROMs (40_token_alphabet.md R81 to R84) and the texts they give (41_decoder.md R108). -/

namespace Sys2Proof.Proofs

open Sys2Proof.Machine Sys2Proof.Safety

/-! ## The encoder's ROM -/

/-- A lookup of a key that no row has finds nothing. -/
theorem lookup_eq_none_of_not_mem {c : Byte} {β : Type} {l : List (Byte × β)} (h : c ∉ l.map Prod.fst) :
    l.lookup c = none := by
  rw [List.lookup_eq_none_iff]
  intro row hrow
  exact bne_iff_ne.2 fun heq => h (List.mem_map.2 ⟨row, hrow, heq.symm⟩)

/-- Outside the ten characters of the round trip the encoder's ROM is empty (40_token_alphabet.md R83). -/
theorem encTok_of_not_mem_roundTripChars {c : Byte} (hc : c ∉ roundTripChars) (lossy : Bool) :
    encTok c lossy = none := by
  refine encTok_of_no_code ?_ ?_ lossy
  · rw [commandCode_eq_lookup]
    exact lookup_eq_none_of_not_mem fun h => hc (List.mem_append_left [0x09, 0x0A] h)
  · rw [formattingCode_eq_lookup]
    exact lookup_eq_none_of_not_mem fun h => hc (List.mem_append_right commandChars h)

/-- The encoder's ROM is a table when the table's keys are among the ten characters and it is right for these. -/
theorem encTok_eq_lookup {lossy : Bool} {l : List (Byte × Token)} (hkeys : ∀ c ∈ l.map Prod.fst, c ∈ roundTripChars)
    (hrows : ∀ c ∈ roundTripChars, encTok c lossy = l.lookup c) (c : Byte) : encTok c lossy = l.lookup c := by
  by_cases hc : c ∈ roundTripChars
  · exact hrows c hc
  · rw [encTok_of_not_mem_roundTripChars hc, lookup_eq_none_of_not_mem fun h => hc (hkeys c h)]

/-- Settles O9: the encoder's cells by the ten characters, the decoder's by evaluation. -/
theorem romContents : Obligations.RomContents :=
  ⟨encTok_eq_lookup (by decide) (by decide), encTok_eq_lookup (by decide) (by decide), rfl, rfl, rfl⟩

/-! ## Decoded texts -/

/-- A token gives a command character with `LOSSY = 1`. -/
theorem decChar_true_eq_some (t : Token) : ∃ c ∈ commandChars, decChar t true = some c := by
  revert t
  decide

/-- What a token gives with `LOSSY = 0` is a command, TAB or NL. -/
theorem mem_roundTripChars_of_decChar_false {t : Token} {c : Byte} (h : decChar t false = some c) :
    c ∈ roundTripChars := by
  have hall : ∀ t, ∀ c ∈ decChar t false, c ∈ roundTripChars := by decide
  exact hall t c h

@[simp] theorem tokensOf_append (p q : List Byte) : tokensOf (p ++ q) = tokensOf p ++ tokensOf q :=
  List.flatMap_append

/-- A packed byte holds two tokens. -/
@[simp] theorem length_tokensOf (p : List Byte) : (tokensOf p).length = 2 * p.length := by
  simp [tokensOf, Nat.mul_comm]

/-- Settles O50: a token gives one character with `LOSSY = 1`, at most one with `LOSSY = 0`. -/
theorem decodedTextProperties : Obligations.DecodedTextProperties := by
  intro p q
  refine ⟨?_, fun c hc => ?_, ?_, fun c hc => ?_, fun l => ?_⟩
  · rw [← length_tokensOf]
    refine List.filterMap_length_eq_length.2 fun t _ => ?_
    obtain ⟨c, -, ht⟩ := decChar_true_eq_some t
    exact ht ▸ rfl
  · obtain ⟨t, -, ht⟩ := List.mem_filterMap.1 hc
    obtain ⟨d, hd, htd⟩ := decChar_true_eq_some t
    obtain rfl : d = c := Option.some.inj (htd.symm.trans ht)
    exact hd
  · rw [← length_tokensOf]
    exact List.length_filterMap_le _ _
  · obtain ⟨t, -, ht⟩ := List.mem_filterMap.1 hc
    exact mem_roundTripChars_of_decChar_false ht
  · rw [decodeText, tokensOf_append, List.filterMap_append]
    rfl

end Sys2Proof.Proofs
end

section
/-! The fetch (20_memory.md R33, R36, 41_decoder.md R87) and the step (60_exceptions.md R134, R145). -/

namespace Sys2Proof.Proofs

open Sys2Proof.Machine Sys2Proof.Safety Sys2Proof.Laws

/-! ## The fetch -/

theorem getLsbD_hiNibble (b : Byte) (k : Nat) : (hiNibble b).getLsbD k = (decide (k < 4) && b.getLsbD (4 + k)) :=
  BitVec.getLsbD_extractLsb' ..

theorem getLsbD_loNibble (b : Byte) (k : Nat) : (loNibble b).getLsbD k = (decide (k < 4) && b.getLsbD k) := by
  rw [loNibble, BitVec.getLsbD_extractLsb', Nat.zero_add]

/-- Bit `3 - k` of the token fetched is the stream bit at `CUR + k`: both are in the byte at `CUR div 8`. -/
theorem getLsbD_fetchToken {s : State} (haligned : s.cur % 4 = 0) {k : Nat} (hk : k < 4) :
    (fetchToken s).getLsbD (3 - k) = streamBit s (s.cur + k) := by
  have hbyte : (s.cur + k) / 8 = s.cur / 8 := by omega
  have hbit : 3 - k < 4 := by omega
  rw [streamBit, bitInByte, hbyte, fetchToken]
  split
  case isTrue hhi =>
    have hindex : 4 + (3 - k) = 7 - (s.cur + k) % 8 := by omega
    simp only [getLsbD_hiNibble, hbit, hindex, decide_true, Bool.true_and]
  case isFalse hlo =>
    have hindex : 3 - k = 7 - (s.cur + k) % 8 := by omega
    rw [getLsbD_loNibble, decide_eq_true hbit, Bool.true_and, hindex]

/-- Settles O10: the nibble and the stream bit are the model's definitions, the bits are compared above. -/
theorem fetchedTokenIsFourStreamBits : Obligations.FetchedTokenIsFourStreamBits :=
  fun _ haligned => ⟨rfl, fun _ => rfl, fun _ => getLsbD_fetchToken haligned⟩

/-- Settles O12: below `END` the byte fetched from is below `IN_LEN`. -/
theorem fetchReadsOnlyTheInput : Obligations.FetchReadsOnlyTheInput := by
  intro s t hmode hcur hinLen hin
  have hend : endOf s = endOf t := by simp only [endOf, hmode, hinLen]
  by_cases hlt : s.cur < endOf s
  · have hltt : t.cur < endOf t := hcur ▸ hend ▸ hlt
    cases hs : s.mode with
    | encode =>
      have hindex : s.cur < s.inLen := by simpa [endOf, hs] using hlt
      rw [fetchItem_encode hlt hs, fetchItem_encode hltt (hmode ▸ hs), hin _ hindex, hcur]
    | decode =>
      have hindex : s.cur / 8 < s.inLen := by
        simp only [endOf, hs] at hlt
        omega
      rw [fetchItem_decode hlt hs, fetchItem_decode hltt (hmode ▸ hs), fetchToken, hin _ hindex, hcur]
      rfl
  · have hltt : ¬t.cur < endOf t := hcur ▸ hend ▸ hlt
    rw [fetchItem, fetchItem, if_neg hlt, if_neg hltt, hmode]

/-! ## The step -/

/-- The engine moves when its slot is next, and when nothing is scheduled (log 1). -/
theorem step_of_engine_next {s : State} {r : List Slot} (h : s.schedule = [] ∧ r = [] ∨ s.schedule = .engine :: r) :
    step s = engineStep { s with schedule := r } := by
  rcases h with ⟨hs, rfl⟩ | hs
  · rw [step_of_schedule_nil hs, ← hs]
  · simp only [step, stepAgents, hs]

/-- A host write of `CMD` runs the instruction its value decodes to. -/
theorem hostWriteCmd_of_decode {v : Nat} {i : Instr} {s : State} (hv : v < 256)
    (hd : decode (.cmd (BitVec.ofNat 8 v)) = .instr i) : hostWriteCmd v s = exec i s := by
  simp only [hostWriteCmd, hv, if_true, hd]

/-- Settles O13: by who moves. -/
theorem stepRunsTheDecodedInstruction : Obligations.StepRunsTheDecodedInstruction := by
  intro s r i
  refine ⟨fun hb hs hd => ?_, fun v hv hs hd => ?_, fun hidle hs => ?_⟩
  · rw [step_of_engine_next hs]
    exact engineStep_of_decode_fetchItem (s := { s with schedule := r }) hb hd
  · simp only [step, stepAgents, hs]
    exact hostWriteCmd_of_decode hv hd
  · rw [step_of_engine_next hs]
    exact engineStep_of_not_busy (s := { s with schedule := r }) hidle

/-! ## Progress -/

@[simp] theorem appendIfAny_done (ch : Option Byte) (s : State) : (appendIfAny ch s).done = s.done := by
  cases ch <;> rfl
@[simp] theorem placeIfAny_done (t : Option Token) (c : Byte) (s : State) : (placeIfAny t c s).done = s.done := by
  cases t <;> simp [placeIfAny]

/-- At or above `END` the engine's step is the end-of-input step of the direction (log 11). -/
theorem engineStep_of_end_le {s : State} (hb : s.busy = true) (hend : endOf s ≤ s.cur) :
    engineStep s = exec (decodeEos s.mode) s := by
  have hitem : fetchItem s = .eos s.mode := by rw [fetchItem, if_neg hend.not_gt]
  exact engineStep_of_decode_fetchItem hb (hitem ▸ rfl)

/-- Settles O15: the step of each direction below `END`, the end-of-input step from there on. -/
theorem engineStepProgresses : Obligations.EngineStepProgresses := by
  intro s hb
  rcases Nat.lt_or_ge s.cur (endOf s) with hlt | hend
  · cases hmode : s.mode with
    | encode => exact ⟨_, engineStep_encode hb hlt hmode, by simp [hb], fun hend => absurd hlt hend.not_gt⟩
    | decode => exact ⟨_, engineStep_decode hb hlt hmode, by simp [hb], fun hend => absurd hlt hend.not_gt⟩
  · cases hmode : s.mode with
    | encode => exact ⟨_, hmode ▸ engineStep_of_end_le hb hend, fun hlt => absurd hlt hend.not_gt, by simp⟩
    | decode => exact ⟨_, hmode ▸ engineStep_of_end_le hb hend, fun hlt => absurd hlt hend.not_gt, by simp⟩

end Sys2Proof.Proofs
end

section
/-! What the instructions leave unchanged (41_decoder.md R85, R105, 42_encoder.md R109, R130, 20_memory.md R41, R46) and
`START` (60_exceptions.md R144). -/

namespace Sys2Proof.Proofs

open Sys2Proof.Machine Sys2Proof.Safety Sys2Proof.Laws

/-! ## The input -/

/-- What a cell of `IN` reads as is a function of what no instruction touches. -/
theorem inByte_of_sameSettings {s t : State} (h : SameSettings s t) (i : Nat) : inByte t i = inByte s i := by
  obtain ⟨-, -, -, -, hcells, -, hresets, hbefore, -⟩ := h
  simp only [inByte, hcells, hresets, hbefore]

/-- Settles O46: `IN` reads as before because the cells and the fields its free values depend on are kept. -/
theorem noInstructionWritesTheInput : Obligations.NoInstructionWritesTheInput := by
  intro i s t h
  have hset : SameSettings s t := exec_sameSettings h
  exact ⟨hset, inByte_of_sameSettings hset⟩

/-! ## `START` -/

/-- `START` when it has a meaning (60_exceptions.md R137, R144). -/
theorem exec_start_of_fits {s : State} (hidle : s.busy = false) (hfits : Config.inFits s.inCap s.inLen = true)
    (g : BitVec 7) : exec (.start g) s = .next (beginRun s) := by
  simp only [exec, execStart, hidle, hfits, Bool.false_eq_true, if_false, if_true]

/-- `START` answers in no other way. -/
theorem exec_start_next {g : BitVec 7} {s t : State} (h : exec (.start g) s = .next t) : t = beginRun s := by
  simp only [exec, execStart] at h
  split at h
  · cases h
  · split at h <;> cases h
    rfl

theorem inFits_of_forall_le {cap : Option Nat} {n : Nat} (h : ∀ c, cap = some c → n ≤ c) :
    Config.inFits cap n = true := by
  cases cap with
  | none => rfl
  | some c => exact decide_eq_true (h c rfl)

/-- The item after `START` is the first of the direction, if there is one. -/
theorem fetchItem_beginRun (s : State) : fetchItem (beginRun s) =
    if s.inLen = 0 then .eos s.mode else
      match s.mode with
      | .encode => .char (inByte s 0)
      | .decode => .tok (hiNibble (inByte s 0)) := by
  by_cases hempty : s.inLen = 0
  · have hend : endOf (beginRun s) = 0 := by cases h : s.mode <;> simp [endOf, h, hempty]
    rw [if_pos hempty]
    exact fetchItem_at_end hend.symm
  · have hpos : 0 < s.inLen := Nat.pos_of_ne_zero hempty
    have hlt : (beginRun s).cur < endOf (beginRun s) := by cases h : s.mode <;> simp [endOf, h, hpos]
    rw [if_neg hempty]
    cases hmode : s.mode with
    | encode => exact fetchItem_encode hlt hmode
    | decode =>
      simp only [fetchItem_decode hlt hmode, fetchToken, beginRun_cur, Nat.zero_mod, Nat.zero_div, if_true]
      rfl

/-- Settles O30: the assignments are those of `beginRun`, the item is the one at `CUR = 0`. -/
theorem startBeginsARun : Obligations.StartBeginsARun := by
  refine ⟨fun g => decodeCmd_append g 1, fun g s hidle hcap => ?_⟩
  exact ⟨beginRun s, exec_start_of_fits hidle (inFits_of_forall_le hcap) g, rfl, fetchItem_beginRun s⟩

/-- Settles O31: an instruction keeps the settings, and the run that begins keeps the cells of `OUT`. -/
theorem startFrame : Obligations.StartFrame := by
  intro g s t h
  have hset : SameSettings s t := exec_sameSettings h
  obtain rfl := exec_start_next h
  exact ⟨hset, inByte_of_sameSettings hset, fun _ => rfl⟩

/-! ## The output -/

theorem outSameBut_write {s t : State} {v : Byte} (h : t.outCells = Memory.write s.outCells s.outLen v) :
    OutSameBut s.outLen s t := by
  intro a ha
  rw [h, read_write, if_neg ha]

theorem outSame_of_outCells_eq {s t : State} (h : t.outCells = s.outCells) : OutSame s t := by
  intro a
  rw [h]

theorem place_outCells_awaitingHigh {t : Token} {c : Byte} {s : State} (h : s.half = .awaitingHigh) :
    (place t c s).outCells = s.outCells ∧ (place t c s).outLen = s.outLen := by
  rw [place_eq_of_awaitingHigh h]
  exact ⟨rfl, rfl⟩

theorem place_outCells_awaitingLow {t : Token} {c : Byte} {s : State} (h : s.half = .awaitingLow) :
    (place t c s).outCells = Memory.write s.outCells s.outLen (s.acc ||| t.setWidth 8) ∧
      (place t c s).outLen = s.outLen + 1 := by
  rw [place_eq_of_awaitingLow h rfl]
  exact ⟨rfl, rfl⟩

/-- `OUT` is kept, or one byte is appended to it (20_memory.md R37). -/
def OutKeptOrAppended (s t : State) : Prop :=
  t.outLen = s.outLen ∧ t.outCells = s.outCells ∨
    t.outLen = s.outLen + 1 ∧ ∃ v, t.outCells = Memory.write s.outCells s.outLen v

theorem place_outKeptOrAppended (t : Token) (c : Byte) (s : State) : OutKeptOrAppended s (place t c s) := by
  cases h : s.half with
  | awaitingHigh => exact .inl (place_outCells_awaitingHigh h).symm
  | awaitingLow =>
    obtain ⟨hcells, hlen⟩ := place_outCells_awaitingLow (t := t) (c := c) h
    exact .inr ⟨hlen, _, hcells⟩

theorem padLastByte_outKeptOrAppended (s : State) : OutKeptOrAppended s (padLastByte s) := by
  cases h : s.half with
  | awaitingHigh =>
    rw [padLastByte_awaitingHigh h]
    exact .inl ⟨rfl, rfl⟩
  | awaitingLow =>
    rw [padLastByte_awaitingLow h]
    exact .inr ⟨rfl, _, rfl⟩

/-- No instruction but `START` turns a block that is not busy into a busy one. -/
theorem not_busy_of_ne_start {i : Instr} {s t : State} (hi : ∀ g, i ≠ .start g) (h : exec i s = .next t)
    (hidle : s.busy = false) : t.busy = false := by
  cases i
  case start g => exact absurd rfl (hi g)
  case dPad | dNop3 | dNop4 | dNop5 | dNop6 | dNop7 | eTab | eNl =>
    cases h
    split <;> simp [hidle]
  all_goals
    cases h
    simp [hidle]

/-- Every instruction but `START` keeps `OUT` or appends one byte; a run begun would have set `BUSY`. -/
theorem exec_outKeptOrAppended {i : Instr} {s t : State} (hi : ∀ g, i ≠ .start g) (h : exec i s = .next t) :
    OutKeptOrAppended s t := by
  rcases exec_next h with ⟨ch, rfl⟩ | rfl | ⟨tok, c, rfl⟩ | rfl | rfl | rfl | ⟨hidle, -, rfl⟩
  · exact .inr ⟨rfl, ch, rfl⟩
  · exact .inl ⟨rfl, rfl⟩
  · exact place_outKeptOrAppended tok c s
  · exact .inl ⟨rfl, rfl⟩
  · exact .inl ⟨rfl, rfl⟩
  · exact padLastByte_outKeptOrAppended s
  · cases not_busy_of_ne_start hi h hidle

/-- Settles O47: `START`, then the others. -/
theorem outputIsOnlyAppendedTo : Obligations.OutputIsOnlyAppendedTo := by
  intro i s t h
  by_cases hstart : ∃ g, i = .start g
  · obtain ⟨g, rfl⟩ := hstart
    obtain rfl := exec_start_next h
    exact ⟨fun _ _ => rfl, .inl ⟨⟨g, rfl⟩, rfl, rfl⟩⟩
  · have hi : ∀ g, i ≠ .start g := fun g hg => hstart ⟨g, hg⟩
    rcases exec_outKeptOrAppended hi h with ⟨hlen, hcells⟩ | ⟨hlen, v, hcells⟩
    · exact ⟨fun a _ => outSame_of_outCells_eq hcells a, .inr (.inl ⟨hlen, hcells⟩)⟩
    · exact ⟨outSameBut_write hcells, .inr (.inr ⟨hlen, v, hcells⟩)⟩

/-! ## The two directions -/

/-- Settles O21: the common decode step with and without a character, then the end of input. -/
theorem decodeFrame : Obligations.DecodeFrame := by
  refine ⟨fun tok s t h => ?_, fun s t h => ?_⟩
  · have hset : SameSettings s t := exec_sameSettings h
    have hin := inByte_of_sameSettings hset
    rw [exec_decodeTok] at h
    cases hch : decChar tok s.lossy with
    | some ch =>
      rw [hch] at h
      cases h
      exact ⟨hset, rfl, rfl, rfl, rfl, hin, fun hd => if_neg (by simp [hd]), outSameBut_write rfl⟩
    | none =>
      rw [hch] at h
      cases h
      exact ⟨hset, rfl, rfl, rfl, rfl, hin, fun _ => rfl, rfl, rfl, fun _ => rfl⟩
  · have hset : SameSettings s t := exec_sameSettings h
    have hin := inByte_of_sameSettings hset
    cases h
    exact ⟨hset, rfl, rfl, rfl, rfl, rfl, hin, fun _ => rfl⟩

theorem place_dbg_of_not_debug {s : State} (hd : s.debug = false) (t : Token) (c : Byte) :
    (place t c s).dbg = s.dbg := by
  cases h : s.half with
  | awaitingHigh => simp [place_awaitingHigh h, hd]
  | awaitingLow => simp [place_awaitingLow h, hd]

/-- Settles O29: the common encode step by the token and `HALF`, then the end of input by `HALF`. -/
theorem encodeFrame : Obligations.EncodeFrame := by
  refine ⟨fun c s t h => ?_, fun s t h => ?_⟩
  · have hset : SameSettings s t := exec_sameSettings h
    have hin := inByte_of_sameSettings hset
    rw [exec_decodeChar] at h
    cases htok : encTok c s.lossy with
    | some tok =>
      rw [htok] at h
      cases h
      refine ⟨hset, place_busy tok c s, place_done tok c s, hin, fun hd => place_dbg_of_not_debug hd tok c, ?_⟩
      cases hhalf : s.half with
      | awaitingHigh =>
        obtain ⟨hcells, hlen⟩ := place_outCells_awaitingHigh (t := tok) (c := c) hhalf
        exact ⟨hlen, outSame_of_outCells_eq hcells⟩
      | awaitingLow => exact outSameBut_write (place_outCells_awaitingLow hhalf).1
    | none =>
      rw [htok] at h
      cases h
      exact ⟨hset, rfl, rfl, hin, fun _ => rfl, rfl, rfl, rfl, rfl, fun _ => rfl⟩
  · have hset : SameSettings s t := exec_sameSettings h
    have hin := inByte_of_sameSettings hset
    rw [exec_eEos] at h
    cases h
    refine ⟨hset, padLastByte_cur s, padLastByte_dbg s, hin, ?_⟩
    cases hhalf : s.half with
    | awaitingHigh =>
      rw [padLastByte_awaitingHigh hhalf]
      exact ⟨rfl, rfl, fun _ => rfl⟩
    | awaitingLow => exact outSameBut_write (congrArg State.outCells (padLastByte_awaitingLow hhalf))

/-! ## The halves of `ACC` -/

/-- A token joins a pending one as the low half of a byte. -/
theorem or_setWidth_eq_mkByte {a : Byte} (hlow : loNibble a = 0x0) (t : Token) :
    a ||| t.setWidth 8 = mkByte (hiNibble a) t := by
  have ha : a = (hiNibble a).setWidth 8 <<< 4 := by
    rw [setWidth_shiftLeft_eq_mkByte, ← hlow, mkByte_hiNibble_loNibble]
  rw [mkByte, ← ha]

/-- Settles O23: in either half the byte formed is the pair of the token and what the other half held. -/
theorem packerLanesAreIndependent : Obligations.PackerLanesAreIndependent := by
  rintro t s ⟨hempty, hpending⟩
  refine ⟨fun hhalf => ?_, fun hhalf => ?_⟩
  · have hacc : (fillHalf t s).acc = mkByte t 0x0 := by rw [fillHalf_awaitingHigh hhalf, setWidth_shiftLeft_eq_mkByte]
    rw [hacc, hempty hhalf]
    exact ⟨hiNibble_mkByte t 0x0, loNibble_mkByte t 0x0⟩
  · have hacc : (fillHalf t s).acc = mkByte (hiNibble s.acc) t := by
      rw [fillHalf_awaitingLow hhalf, or_setWidth_eq_mkByte (hpending hhalf)]
    rw [hacc]
    exact ⟨hiNibble_mkByte _ t, loNibble_mkByte _ t⟩

end Sys2Proof.Proofs
end

section
/-! The host's registers and buffers (10_state.md section 3, R26), its reads (20_memory.md R42), and how long a result
stays (70_reset_and_hazards.md R154). -/

namespace Sys2Proof.Proofs

open Sys2Proof.Machine Sys2Proof.Safety Sys2Proof.Laws

/-! ## The registers -/

/-- The word read from `STATUS`, as a number. -/
theorem statusWord_toNat (s : State) :
    (statusWord s).toNat = (if s.busy then 1 else 0) + (if s.done then 2 else 0) := by
  unfold statusWord
  cases s.busy <;> cases s.done <;> rfl

/-- Every length up to `IN_CAP` fits the `LEN_W` bits of `IN_LEN`. -/
theorem fitsLenReg_of_forall_le {cap : Option Nat} {v : Nat} (h : ∀ c, cap = some c → v ≤ c) :
    Config.fitsLenReg cap v = true := by
  cases cap with
  | none => rfl
  | some c =>
    have hle : v ≤ c := h c rfl
    have hwidth : c < 2 ^ Config.lenW c := by
      unfold Config.lenW
      split
      case isTrue hzero => simp [hzero]
      case isFalse => exact Nat.lt_log2_self
    exact decide_eq_true (hle.trans_lt hwidth)

theorem hostReadReg_of_four_lt {n : Nat} (h : 4 < n) (s : State) : hostReadReg n s = .fault (.noSuchRegister n) := by
  obtain ⟨m, rfl⟩ := Nat.exists_eq_add_of_le' h
  rfl

theorem hostWriteReg_of_four_lt {n : Nat} (h : 4 < n) (v : Nat) (s : State) :
    hostWriteReg n v s = .fault (.noSuchRegister n) := by
  obtain ⟨m, rfl⟩ := Nat.exists_eq_add_of_le' h
  rfl

/-- Settles O35: one register a clause. -/
theorem otherRegisters : Obligations.OtherRegisters := by
  intro s
  refine ⟨?_, rfl, fun hidle => ?_, fun v => ⟨rfl, rfl⟩, fun v hidle hcap => ?_, fun n v hn => ?_⟩
  · simp only [hostStep, hostReadReg, returnToHost, statusWord_toNat]
  · simp only [hostStep, hostReadReg, returnToHost, hidle, Bool.false_eq_true, if_false]
  · simp only [hostStep, hostWriteReg, hostWriteInLen, hidle, fitsLenReg_of_forall_le hcap, Bool.false_eq_true,
      if_false, if_true]
  · exact ⟨hostReadReg_of_four_lt hn s, hostWriteReg_of_four_lt hn v s⟩

/-! ## The buffers -/

theorem inHasCell_of_forall_lt {cap : Option Nat} {i : Nat} (h : ∀ c, cap = some c → i < c) :
    Config.inHasCell cap i = true := by
  cases cap with
  | none => rfl
  | some c => exact decide_eq_true (h c rfl)

/-- A cell of `IN` that is written reads as the byte written, the others as before (20_memory.md R36). -/
theorem inByte_write (s : State) (i : Nat) (v : Byte) (j : Nat) :
    inByte { s with inCells := Memory.write s.inCells i v } j = if j = i then v else inByte s j := by
  simp only [inByte, read_write]
  by_cases hj : j = i <;> simp only [hj, if_true, if_false]

/-- Settles O36: one buffer a clause. -/
theorem hostBuffers : Obligations.HostBuffers := by
  intro s hidle
  refine ⟨fun i v hcap => ?_, fun i hcap => ?_, fun j v hj hread => ?_, fun k r hrec => ?_⟩
  · refine ⟨{ s with inCells := Memory.write s.inCells i v }, ?_, inByte_write s i v, rfl⟩
    simp only [hostStep, hostWriteIn, hidle, inHasCell_of_forall_lt hcap, Bool.false_eq_true, if_false, if_true]
  · simp only [hostStep, hostReadIn, hidle, inHasCell_of_forall_lt hcap, Bool.false_eq_true, if_false, if_true,
      returnToHost]
  · simp only [hostStep, hostReadOut, hidle, hj, hread, Bool.false_eq_true, if_false, if_true, returnToHost]
  · simp only [hostStep, hostReadDbg, hrec, returnToHost]

/-! ## Reads -/

/-- A read that answers changes nothing but what the host has read. -/
theorem eq_returnToHost_of_read {op : HostOp} {s t : State} (hreg : ∀ n v, op ≠ .writeReg n v)
    (hin : ∀ i v, op ≠ .writeIn i v) (h : hostStep op s = .next t) : ∃ v, t = returnToHost v s := by
  cases op with
  | writeReg n v => exact absurd rfl (hreg n v)
  | writeIn i v => exact absurd rfl (hin i v)
  | readReg n =>
    simp only [hostStep, hostReadReg] at h
    split at h
    case h_5 => split at h <;> cases h; exact ⟨_, rfl⟩
    case h_6 => cases h
    all_goals
      cases h
      exact ⟨_, rfl⟩
  | readIn i =>
    simp only [hostStep, hostReadIn] at h
    split at h
    · cases h
    · split at h <;> cases h
      exact ⟨_, rfl⟩
  | readOut j =>
    simp only [hostStep, hostReadOut] at h
    split at h
    · cases h
    · split at h
      · split at h <;> cases h
        exact ⟨_, rfl⟩
      · cases h
  | readDbg k =>
    simp only [hostStep, hostReadDbg] at h
    split at h <;> cases h
    exact ⟨_, rfl⟩

/-- Settles O37: every read is a `returnToHost`. -/
theorem hostReadsHaveNoSideEffect : Obligations.HostReadsHaveNoSideEffect := by
  intro s t op hreg hin h
  obtain ⟨v, rfl⟩ := eq_returnToHost_of_read hreg hin h
  rfl

/-! ## The result -/

/-- Settles O39: outside a run the engine does nothing, and of the host's actions `START` alone touches the result. -/
theorem resultStaysReadable : Obligations.ResultStaysReadable := by
  intro s t hidle h hidle' hreset
  rcases step_next h with ⟨r, -, hengine⟩ | ⟨op, r, -, hhost⟩ | ⟨r, hs, -⟩
  · rw [engineStep_of_not_busy (s := { s with schedule := r }) hidle] at hengine
    cases hengine
    exact ⟨rfl, rfl, rfl, rfl⟩
  · rcases hostStep_next hhost with rfl | ⟨v, rfl⟩ | ⟨-, ⟨v, rfl⟩ | ⟨v, rfl⟩ | ⟨i, v, -, rfl⟩ | ⟨-, rfl⟩⟩
    case inr.inr.inr.inr.inr => cases hidle'
    all_goals exact ⟨rfl, rfl, rfl, rfl⟩
  · exact absurd hs (hreset r)

/-- A reset that is scheduled next is what the step does. -/
theorem step_of_reset_next {s : State} {r : List Slot} (h : s.schedule = .reset :: r) :
    step s = .next (hardReset { s with schedule := r }) := by
  simp only [step, stepAgents, h]

/-- Settles O41: the step is the hardware reset, whose registers are listed. -/
theorem hardwareResetFromAnyState : Obligations.HardwareResetFromAnyState := by
  intro s r h
  exact ⟨_, step_of_reset_next h, rfl, rfl, rfl, ctrlWord_of_reset_settings rfl rfl rfl, statusWord_of_idle rfl rfl,
    rfl, rfl, rfl, rfl, rfl, rfl⟩

end Sys2Proof.Proofs
end

section
/-! The invariants: that between `ACC` and `HALF` (10_state.md R13), and the whole invariant (10_state.md R10, R11, R13,
R15, R22, R26, R30, 20_memory.md R44). -/

namespace Sys2Proof.Proofs

open Sys2Proof.Machine Sys2Proof.Safety Sys2Proof.Laws

/-! ## `ACC` and `HALF` -/

theorem accHalf_of_acc_eq_zero {s : State} (h : s.acc = 0x00) : AccHalf s :=
  ⟨fun _ => h, fun _ => h ▸ rfl⟩

/-- A placement establishes the invariant, whatever `ACC` held. -/
theorem accHalf_place (t : Token) (c : Byte) (s : State) : AccHalf (place t c s) := by
  cases h : s.half with
  | awaitingHigh =>
    rw [place_eq_of_awaitingHigh h, setWidth_shiftLeft_eq_mkByte]
    exact ⟨nofun, fun _ => loNibble_mkByte t 0x0⟩
  | awaitingLow =>
    rw [place_eq_of_awaitingLow h rfl]
    exact accHalf_of_acc_eq_zero rfl

/-- The padding leaves the packer empty. -/
theorem padLastByte_empty {s : State} (h : AccHalf s) :
    (padLastByte s).acc = 0x00 ∧ (padLastByte s).half = .awaitingHigh := by
  cases hhalf : s.half with
  | awaitingHigh =>
    rw [padLastByte_awaitingHigh hhalf]
    exact ⟨h.1 hhalf, hhalf⟩
  | awaitingLow =>
    rw [padLastByte_awaitingLow hhalf]
    exact ⟨rfl, rfl⟩

theorem accHalf_exec {i : Instr} {s t : State} (hacc : AccHalf s) (h : exec i s = .next t) : AccHalf t := by
  rcases exec_next h with ⟨ch, rfl⟩ | rfl | ⟨tok, c, rfl⟩ | rfl | rfl | rfl | ⟨-, -, rfl⟩
  · exact hacc
  · exact hacc
  · exact accHalf_place tok c s
  · exact hacc
  · exact hacc
  · exact accHalf_of_acc_eq_zero (padLastByte_empty hacc).1
  · exact accHalf_of_acc_eq_zero rfl

theorem accHalf_hostStep {op : HostOp} {s t : State} (hacc : AccHalf s) (h : hostStep op s = .next t) :
    AccHalf t := by
  rcases hostStep_next h with rfl | ⟨v, rfl⟩ | ⟨-, ⟨v, rfl⟩ | ⟨v, rfl⟩ | ⟨i, v, -, rfl⟩ | ⟨-, rfl⟩⟩
  case inr.inr.inr.inr.inr => exact accHalf_of_acc_eq_zero rfl
  all_goals exact hacc

theorem accHalf_engineStep {s t : State} (hacc : AccHalf s) (h : engineStep s = .next t) : AccHalf t := by
  rcases engineStep_next h with ⟨-, rfl⟩ | ⟨-, hexec⟩
  · exact hacc
  · exact accHalf_exec hacc hexec

/-- Settles O42: for a step, by who moves. -/
theorem accHalfInvariant : Obligations.AccHalfInvariant := by
  refine ⟨accHalf_of_acc_eq_zero rfl, fun g s t h => ?_, fun s t hacc h => ?_⟩
  · obtain rfl := exec_start_next h
    exact accHalf_of_acc_eq_zero rfl
  · rcases step_next h with ⟨r, -, hengine⟩ | ⟨op, r, -, hhost⟩ | ⟨r, -, rfl⟩
    · exact accHalf_engineStep (s := { s with schedule := r }) hacc hengine
    · exact accHalf_hostStep (s := { s with schedule := r }) hacc hhost
    · exact accHalf_of_acc_eq_zero rfl

/-! ## The capacity -/

/-- Two bytes of output for each byte of input fit `OUT_CAP` (20_memory.md R44). -/
theorem outFits_of_le {cap : Option Nat} {len n : Nat} (hfits : Config.inFits cap len = true) (hn : n ≤ 2 * len) :
    Config.outFits cap n = true := by
  cases cap with
  | none => rfl
  | some c =>
    have hlen : len ≤ c := of_decide_eq_true hfits
    exact decide_eq_true (by omega)

theorem outFits_zero (cap : Option Nat) : Config.outFits cap 0 = true := by
  cases cap <;> simp [Config.outFits]

/-! ## The memories after an instruction -/

/-- Every byte of the result stays written. -/
theorem written_of_outKeptOrAppended {s t : State} (hout : OutKeptOrAppended s t)
    (h : ∀ j, j < s.outLen → (Memory.read s.outCells j).isSome = true) :
    ∀ j, j < t.outLen → (Memory.read t.outCells j).isSome = true := by
  intro j hj
  rcases hout with ⟨hlen, hcells⟩ | ⟨hlen, v, hcells⟩
  · rw [hcells]
    exact h j (hlen ▸ hj)
  · rw [hcells, read_write]
    split
    · rfl
    · exact h j (by omega)

/-- The memories stay in form when the output fits. -/
theorem memOk_of_outKeptOrAppended {s t : State} (hset : SameSettings s t) (hout : OutKeptOrAppended s t)
    (hfits : Config.outFits s.inCap t.outLen = true) (h : MemOk s) : MemOk t := by
  obtain ⟨-, -, -, -, hinCells, hinCap, -, hinBefore, -⟩ := hset
  obtain ⟨hin, hcanon, hbefore, hcells, houtCells⟩ := h
  rw [MemOk, hinCells, hinBefore, hinCap]
  rcases hout with ⟨-, hkept⟩ | ⟨hlen, v, hwrite⟩
  · exact hkept.symm ▸ ⟨hin, hcanon, hbefore, hcells, houtCells⟩
  · rw [hwrite]
    refine ⟨hin, write_wf hcanon _ _, hbefore, hcells, fun c hc => ?_⟩
    rcases mem_write hc with rfl | hc
    · exact hlen ▸ hfits
    · exact houtCells c hc

/-! ## Outside a run -/

theorem runOk_of_idle {s : State} (hidle : s.busy = false) (hacc : s.acc = 0x00) (hhalf : s.half = .awaitingHigh) :
    RunOk s := by
  simp [RunOk, hidle, hacc, hhalf]

theorem outOk_of_idle {s : State} (hidle : s.busy = false) (hfits : Config.outFits s.inCap s.outLen = true)
    (hwritten : ∀ j, j < s.outLen → (Memory.read s.outCells j).isSome = true) : OutOk s :=
  ⟨by simp [hidle], by simp [hidle], hfits, hwritten⟩

/-! ## The engine's step -/

@[simp] theorem appendIfAny_acc (ch : Option Byte) (s : State) : (appendIfAny ch s).acc = s.acc := by
  cases ch <;> rfl
@[simp] theorem appendIfAny_half (ch : Option Byte) (s : State) : (appendIfAny ch s).half = s.half := by
  cases ch <;> rfl

theorem appendIfAny_outLen_le (ch : Option Byte) (s : State) : (appendIfAny ch s).outLen ≤ s.outLen + 1 := by
  cases ch <;> simp [appendIfAny]

theorem appendIfAny_dbg_of_not_debug {s : State} (hd : s.debug = false) (ch : Option Byte) :
    (appendIfAny ch s).dbg = s.dbg := by
  cases ch <;> simp [appendIfAny, hd]

theorem placeIfAny_dbg_of_not_debug {s : State} (hd : s.debug = false) (t : Option Token) (c : Byte) :
    (placeIfAny t c s).dbg = s.dbg := by
  cases t with
  | none => rfl
  | some t => exact place_dbg_of_not_debug hd t c

/-- How many tokens an encode run has packed so far. -/
def packedCount (s : State) : Nat := 2 * s.outLen + pending s

theorem packedCount_of_awaitingHigh {s : State} (h : s.half = .awaitingHigh) : packedCount s = 2 * s.outLen := by
  simp only [packedCount, pending, h, Nat.add_zero]

theorem packedCount_of_awaitingLow {s : State} (h : s.half = .awaitingLow) : packedCount s = 2 * s.outLen + 1 := by
  simp only [packedCount, pending, h]

/-- A placement packs one token. -/
theorem packedCount_place (t : Token) (c : Byte) (s : State) : packedCount (place t c s) = packedCount s + 1 := by
  cases h : s.half with
  | awaitingHigh =>
    rw [place_eq_of_awaitingHigh h, packedCount_of_awaitingHigh h]
    exact packedCount_of_awaitingLow rfl
  | awaitingLow =>
    rw [place_eq_of_awaitingLow h rfl, packedCount_of_awaitingLow h]
    exact packedCount_of_awaitingHigh rfl

theorem packedCount_placeIfAny_le (t : Option Token) (c : Byte) (s : State) :
    packedCount (placeIfAny t c s) ≤ packedCount s + 1 := by
  cases t with
  | none => exact Nat.le_succ _
  | some t => exact (packedCount_place t c s).le

/-- The padding packs at most one token. -/
theorem two_mul_outLen_padLastByte_le (s : State) : 2 * (padLastByte s).outLen ≤ packedCount s + 1 := by
  cases h : s.half with
  | awaitingHigh =>
    rw [padLastByte_awaitingHigh h, packedCount_of_awaitingHigh h]
    exact Nat.le_succ _
  | awaitingLow =>
    rw [padLastByte_awaitingLow h, packedCount_of_awaitingLow h]
    exact le_rfl

/-- An instruction of the engine keeps the invariant if it keeps the run's part of it and the bound on the output. -/
theorem inv_exec {i : Instr} {s t : State} (hinv : Inv s) (hi : ∀ g, i ≠ .start g) (h : exec i s = .next t)
    (hfits : Config.inFits s.inCap s.inLen = true) (hrun : RunOk t)
    (hencode : t.busy = true → t.mode = .encode → packedCount t ≤ t.cur)
    (hdecode : t.busy = true → t.mode = .decode → 4 * t.outLen ≤ t.cur) (hlen : t.outLen ≤ 2 * s.inLen) : Inv t := by
  obtain ⟨hacc, -, ⟨-, -, -, hwritten⟩, hmem⟩ := hinv
  have hset : SameSettings s t := exec_sameSettings h
  have hout : OutKeptOrAppended s t := exec_outKeptOrAppended hi h
  have hcap : t.inCap = s.inCap := by
    obtain ⟨-, -, -, -, -, hcap, -⟩ := hset
    exact hcap
  have hroom : Config.outFits s.inCap t.outLen = true := outFits_of_le hfits hlen
  exact ⟨accHalf_exec hacc h, hrun, ⟨hencode, hdecode, hcap.symm ▸ hroom, written_of_outKeptOrAppended hout hwritten⟩,
    memOk_of_outKeptOrAppended hset hout hroom hmem⟩

/-- Within a run, the run's part of the invariant is kept by a step that goes on with the run. -/
theorem runOk_of_run_goes_on {s t : State} (hrun : RunOk s) (hb : s.busy = true) (hset : SameSettings s t)
    (hbusy : t.busy = s.busy) (hdone : t.done = s.done) (hcur : t.cur ≤ endOf s)
    (hdecode : s.mode = .decode → t.acc = s.acc ∧ t.half = s.half ∧ t.cur % 4 = 0)
    (hdbg : s.debug = false → t.dbg = s.dbg) : RunOk t := by
  obtain ⟨hnotboth, hempty, hwithin, -, hnotrace⟩ := hrun
  have hend : endOf t = endOf s := endOf_eq_of_sameSettings hset
  obtain ⟨hmode, -, hdebug, hinLen, -, hcap, -⟩ := hset
  rw [RunOk, hbusy, hdone, hmode, hend, hcap, hinLen, hdebug]
  refine ⟨hnotboth, fun hidle => ?_, fun _ => ⟨hcur, (hwithin hb).2⟩, fun _ hm => ?_,
    fun _ hd => (hdbg hd).trans (hnotrace hb hd)⟩
  · have hm : s.mode = .decode := hidle.resolve_left (by simp [hb])
    obtain ⟨hacc, hhalf, -⟩ := hdecode hm
    rw [hacc, hhalf]
    exact hempty (.inr hm)
  · obtain ⟨-, -, haligned⟩ := hdecode hm
    exact haligned

/-- A token consumes 4 bits of the input and gives at most one byte. -/
theorem inv_token_step {s t : State} (hinv : Inv s) (hb : s.busy = true) (hmode : s.mode = .decode)
    (hlt : s.cur < endOf s) (h : exec (fetchInstr s) s = .next t)
    (ht : t = advance 4 (appendIfAny (decChar (fetchToken s) s.lossy) s)) : Inv t := by
  have ⟨_, hrun, ⟨_, hout, _⟩, _⟩ := hinv
  have ⟨_, _, hwithin, haligned, _⟩ := hrun
  have hset : SameSettings s t := exec_sameSettings h
  have hend : endOf s = 8 * s.inLen := by rw [endOf, hmode]
  have hcur : s.cur % 4 = 0 := haligned hb hmode
  have hcount : 4 * s.outLen ≤ s.cur := hout hb hmode
  have htcur : t.cur = s.cur + 4 := by simp [ht]
  have htlen : t.outLen ≤ s.outLen + 1 := ht ▸ appendIfAny_outLen_le _ s
  have hrun' : RunOk t := by
    refine runOk_of_run_goes_on hrun hb hset ?_ ?_ (by omega) (fun _ => ⟨?_, ?_, by omega⟩) fun hd => ?_
    · simp [ht]
    · simp [ht]
    · simp [ht]
    · simp [ht]
    · simpa [ht] using appendIfAny_dbg_of_not_debug hd _
  have hnot : t.mode ≠ .encode := by simp [hset.1, hmode]
  exact inv_exec hinv (fetchInstr_ne_start s) h (hwithin hb).2 hrun' (fun _ hm => absurd hm hnot)
    (fun _ _ => by omega) (by omega)

/-- A character packs at most one token. -/
theorem inv_char_step {s t : State} (hinv : Inv s) (hb : s.busy = true) (hmode : s.mode = .encode)
    (hlt : s.cur < endOf s) (h : exec (fetchInstr s) s = .next t)
    (ht : t = advance 1 (placeIfAny (encTok (inByte s s.cur) s.lossy) (inByte s s.cur) s)) : Inv t := by
  have ⟨_, hrun, ⟨hout, _⟩, _⟩ := hinv
  have ⟨_, _, hwithin, _⟩ := hrun
  have hset : SameSettings s t := exec_sameSettings h
  have hend : endOf s = s.inLen := by rw [endOf, hmode]
  have hcount : packedCount s ≤ s.cur := hout hb hmode
  have htcur : t.cur = s.cur + 1 := by simp [ht]
  have htcount : packedCount t ≤ packedCount s + 1 := ht ▸ packedCount_placeIfAny_le _ _ s
  have htlen : 2 * t.outLen ≤ packedCount t := Nat.le_add_right _ _
  have hrun' : RunOk t := by
    refine runOk_of_run_goes_on hrun hb hset ?_ ?_ (by omega) (fun hm => ?_) fun hd => ?_
    · simp [ht]
    · simp [ht]
    · cases hmode.symm.trans hm
    · simpa [ht] using placeIfAny_dbg_of_not_debug hd _ _
  have hnot : t.mode ≠ .decode := by simp [hset.1, hmode]
  exact inv_exec hinv (fetchInstr_ne_start s) h (hwithin hb).2 hrun' (fun _ _ => by omega)
    (fun _ hm => absurd hm hnot) (by omega)

/-- The end-of-input step leaves the packer empty and completes at most one byte. -/
theorem inv_end_step {s t : State} (hinv : Inv s) (hb : s.busy = true)
    (h : exec (decodeEos s.mode) s = .next t) : Inv t := by
  have ⟨hacc, hrun, ⟨hencode, hdecode, _⟩, _⟩ := hinv
  have ⟨_, hempty, hwithin, _⟩ := hrun
  obtain ⟨hcur, hfits⟩ := hwithin hb
  have hne : ∀ g, decodeEos s.mode ≠ .start g := by cases s.mode <;> exact nofun
  have hidle : t.busy = false ∧ t.acc = 0x00 ∧ t.half = .awaitingHigh ∧ t.outLen ≤ 2 * s.inLen := by
    cases hmode : s.mode with
    | decode =>
      obtain ⟨ha, hh⟩ := hempty (.inr hmode)
      have hlen : s.outLen ≤ 2 * s.inLen := by
        have hcount : 4 * s.outLen ≤ s.cur := hdecode hb hmode
        simp only [endOf, hmode] at hcur
        omega
      rw [hmode] at h
      cases h
      exact ⟨rfl, ha, hh, hlen⟩
    | encode =>
      obtain ⟨ha, hh⟩ := padLastByte_empty hacc
      have hlen : (padLastByte s).outLen ≤ 2 * s.inLen := by
        have hcount : packedCount s ≤ s.cur := hencode hb hmode
        have hpad : 2 * (padLastByte s).outLen ≤ packedCount s + 1 := two_mul_outLen_padLastByte_le s
        simp only [endOf, hmode] at hcur
        omega
      rw [hmode] at h
      cases h
      exact ⟨rfl, ha, hh, hlen⟩
  obtain ⟨hbusy, ha, hh, hlen⟩ := hidle
  exact inv_exec hinv hne h hfits (runOk_of_idle hbusy ha hh) (by simp [hbusy]) (by simp [hbusy]) hlen

theorem inv_engineStep {s t : State} (hinv : Inv s) (h : engineStep s = .next t) : Inv t := by
  rcases engineStep_next h with ⟨-, rfl⟩ | ⟨hb, hexec⟩
  · exact hinv
  rcases Nat.lt_or_ge s.cur (endOf s) with hlt | hend
  · cases hmode : s.mode with
    | encode =>
      have hnext := h.symm.trans (engineStep_encode hb hlt hmode)
      exact inv_char_step hinv hb hmode hlt hexec (Host.Outcome.next.inj hnext)
    | decode =>
      have hnext := h.symm.trans (engineStep_decode hb hlt hmode)
      exact inv_token_step hinv hb hmode hlt hexec (Host.Outcome.next.inj hnext)
  · exact inv_end_step hinv hb ((engineStep_of_end_le hb hend).symm.trans h)

/-! ## The host and reset -/

/-- A run begins with an empty packer and an empty output, over an input that fits. -/
theorem inv_beginRun {s : State} (hinv : Inv s) (hfits : Config.inFits s.inCap s.inLen = true) : Inv (beginRun s) := by
  obtain ⟨-, -, -, hmem⟩ := hinv
  exact ⟨accHalf_of_acc_eq_zero rfl, ⟨by simp, fun _ => ⟨rfl, rfl⟩, fun _ => ⟨Nat.zero_le _, hfits⟩, fun _ _ => rfl,
    fun _ _ => rfl⟩, ⟨fun _ _ => le_rfl, fun _ _ => le_rfl, outFits_zero _, nofun⟩, hmem⟩

/-- Outside a run the settings and the trace may be anything. -/
theorem inv_of_idle {s t : State} (hinv : Inv s) (hidle : s.busy = false) (hbusy : t.busy = s.busy)
    (hacc : t.acc = s.acc) (hhalf : t.half = s.half) (houtLen : t.outLen = s.outLen)
    (houtCells : t.outCells = s.outCells) (hcap : t.inCap = s.inCap) (hmem : MemOk t) : Inv t := by
  obtain ⟨-, ⟨-, hempty, -⟩, ⟨-, -, hfits, hwritten⟩, -⟩ := hinv
  have htidle : t.busy = false := hbusy.trans hidle
  obtain ⟨hsacc, hshalf⟩ := hempty (.inl hidle)
  have htacc : t.acc = 0x00 := hacc.trans hsacc
  refine ⟨accHalf_of_acc_eq_zero htacc, runOk_of_idle htidle htacc (hhalf.trans hshalf), outOk_of_idle htidle ?_ ?_,
    hmem⟩
  · rw [hcap, houtLen]
    exact hfits
  · rw [houtLen, houtCells]
    exact hwritten

/-- A cell of `IN` that exists may be written. -/
theorem memOk_write_in {s : State} (hmem : MemOk s) {i : Nat} (hcell : Config.inHasCell s.inCap i = true) (v : Byte) :
    MemOk { s with inCells := Memory.write s.inCells i v } := by
  obtain ⟨hin, hcanon, hbefore, hcells, houtCells⟩ := hmem
  refine ⟨write_wf hin i v, hcanon, hbefore, fun c hc => ?_, houtCells⟩
  rcases mem_write hc with rfl | hc
  · exact hcell
  · exact hcells c hc

theorem inv_hostStep {op : HostOp} {s t : State} (hinv : Inv s) (h : hostStep op s = .next t) : Inv t := by
  have ⟨_, _, _, hmem⟩ := hinv
  rcases hostStep_next h with rfl | ⟨v, rfl⟩ | ⟨hidle, ⟨v, rfl⟩ | ⟨v, rfl⟩ | ⟨i, v, hcell, rfl⟩ | ⟨hfits, rfl⟩⟩
  · exact hinv
  · exact hinv
  · exact inv_of_idle hinv hidle rfl rfl rfl rfl rfl rfl hmem
  · exact inv_of_idle hinv hidle rfl rfl rfl rfl rfl rfl hmem
  · exact inv_of_idle hinv hidle rfl rfl rfl rfl rfl rfl (memOk_write_in hmem hcell v)
  · exact inv_beginRun hinv hfits

/-- Reset empties all but what `IN` held before, which stays in form. -/
theorem inv_hardReset {s : State} (hinv : Inv s) : Inv (hardReset s) := by
  obtain ⟨-, -, -, -, -, hbefore, -⟩ := hinv
  exact ⟨accHalf_of_acc_eq_zero rfl, runOk_of_idle rfl rfl rfl, outOk_of_idle rfl (outFits_zero _) nofun,
    ⟨.nil, .nil, overlay_wf hbefore _, nofun, nofun⟩⟩

/-- Settles O43: by who moves; the slot taken off the schedule is no part of the invariant. -/
theorem invariantKeptByEveryStep : Obligations.InvariantKeptByEveryStep := by
  intro s t hinv h
  rcases step_next h with ⟨r, -, hengine⟩ | ⟨op, r, -, hhost⟩ | ⟨r, -, rfl⟩
  · exact inv_engineStep (s := { s with schedule := r }) hinv hengine
  · exact inv_hostStep (s := { s with schedule := r }) hinv hhost
  · exact inv_hardReset (s := { s with schedule := r }) hinv

/-- Settles O44: the reset state is evaluated. -/
theorem invariantAtReset : Obligations.InvariantAtReset := by
  unfold Obligations.InvariantAtReset
  decide

end Sys2Proof.Proofs
end

section
/-! The debug trace has no effect on a run (10_state.md R19): every step is matched by the step of the state in which
the trace is switched off and empty. -/

namespace Sys2Proof.Proofs

open Sys2Proof.Machine Sys2Proof.Safety Sys2Proof.Laws

/-! ## The updates of the engine -/

theorem withoutDebug_appendIfAny (ch : Option Byte) (s : State) :
    withoutDebug (appendIfAny ch s) = withoutDebug (appendIfAny ch (withoutDebug s)) := by
  cases ch <;> rfl

theorem withoutDebug_placeIfAny (t : Option Token) (c : Byte) (s : State) :
    withoutDebug (placeIfAny t c s) = withoutDebug (placeIfAny t c (withoutDebug s)) := by
  cases t with
  | none => rfl
  | some t =>
    show withoutDebug (place t c s) = withoutDebug (place t c (withoutDebug s))
    cases h : s.half with
    | awaitingHigh =>
      rw [place_eq_of_awaitingHigh h, place_eq_of_awaitingHigh (s := withoutDebug s) h]
      rfl
    | awaitingLow =>
      rw [place_eq_of_awaitingLow h rfl, place_eq_of_awaitingLow (s := withoutDebug s) h rfl]
      rfl

theorem withoutDebug_padLastByte (s : State) :
    withoutDebug (padLastByte s) = withoutDebug (padLastByte (withoutDebug s)) := by
  cases h : s.half with
  | awaitingHigh =>
    rw [padLastByte_awaitingHigh h, padLastByte_awaitingHigh (s := withoutDebug s) h]
    rfl
  | awaitingLow =>
    rw [padLastByte_awaitingLow h, padLastByte_awaitingLow (s := withoutDebug s) h]
    rfl

/-! ## The steps -/

/-- The engine's step looks at neither `DEBUG` nor `DBG`. -/
theorem engineStep_withoutDebug (s : State) :
    outcomeWithoutDebug (engineStep s) = outcomeWithoutDebug (engineStep (withoutDebug s)) := by
  cases hb : s.busy with
  | false => rw [engineStep_of_not_busy hb, engineStep_of_not_busy (s := withoutDebug s) hb]; rfl
  | true =>
    rcases Nat.lt_or_ge s.cur (endOf s) with hlt | hend
    · cases hmode : s.mode with
      | encode =>
        rw [engineStep_encode hb hlt hmode, engineStep_encode (s := withoutDebug s) hb hlt hmode]
        exact congrArg (fun u => Host.Outcome.next (advance 1 u)) (withoutDebug_placeIfAny _ _ s)
      | decode =>
        rw [engineStep_decode hb hlt hmode, engineStep_decode (s := withoutDebug s) hb hlt hmode]
        exact congrArg (fun u => Host.Outcome.next (advance 4 u)) (withoutDebug_appendIfAny _ s)
    · rw [engineStep_of_end_le hb hend, engineStep_of_end_le (s := withoutDebug s) hb hend]
      cases hmode : s.mode with
      | encode =>
        rw [show (withoutDebug s).mode = .encode from hmode]
        exact congrArg (fun u => Host.Outcome.next (finishRun u)) (withoutDebug_padLastByte s)
      | decode =>
        rw [show (withoutDebug s).mode = .decode from hmode]
        rfl

/-- The engine's step is total (60_exceptions.md R134). -/
theorem exists_engineStep (s : State) : ∃ t, engineStep s = .next t := by
  cases hb : s.busy with
  | false => exact ⟨s, engineStep_of_not_busy hb⟩
  | true =>
    obtain ⟨t, ht, -⟩ := engineStepProgresses s hb
    exact ⟨t, ht⟩

/-- Any number of steps of the engine ends alike when the trace is switched off and emptied first. -/
theorem runSteps_withoutDebug {s : State} (hs : s.schedule = []) (k : Nat) :
    outcomeWithoutDebug (runSteps k s) = outcomeWithoutDebug (runSteps k (withoutDebug s)) := by
  induction k generalizing s with
  | zero => rfl
  | succ k ih =>
    obtain ⟨t, ht⟩ := exists_engineStep s
    obtain ⟨u, hu⟩ := exists_engineStep (withoutDebug s)
    have hsame : withoutDebug t = withoutDebug u := by
      have hstep := engineStep_withoutDebug s
      rw [ht, hu] at hstep
      exact Host.Outcome.next.inj hstep
    obtain ⟨-, -, -, -, -, -, -, -, htsched, -⟩ := engineStep_sameSettings ht
    obtain ⟨-, -, -, -, -, -, -, -, husched, -⟩ := engineStep_sameSettings hu
    calc outcomeWithoutDebug (runSteps (k + 1) s)
        = outcomeWithoutDebug (runSteps k t) := by
          rw [runSteps_succ_of_step ((step_of_schedule_nil hs).trans ht)]
      _ = outcomeWithoutDebug (runSteps k (withoutDebug u)) := by rw [ih (htsched.trans hs), hsame]
      _ = outcomeWithoutDebug (runSteps k u) := (ih (husched.trans hs)).symm
      _ = outcomeWithoutDebug (runSteps (k + 1) (withoutDebug s)) := by
          rw [runSteps_succ_of_step ((step_of_schedule_nil (s := withoutDebug s) hs).trans hu)]

/-- Settles O55: both runs end like the one without a trace. -/
theorem debugNeverAffectsTheRun : Obligations.DebugNeverAffectsTheRun := by
  intro k s b d hs
  rw [runSteps_withoutDebug hs, runSteps_withoutDebug (s := { s with debug := b, dbg := d }) hs]
  rfl

end Sys2Proof.Proofs
end

section
/-! Packed texts (42_encoder.md R132, R133): how tokens lie in bytes, and what encoding and decoding make of a text. -/

namespace Sys2Proof.Proofs

open Sys2Proof.Machine Sys2Proof.Safety Sys2Proof.Laws

/-! ## Tokens in bytes -/

/-- Two tokens a byte, the earlier one high; an odd last token is followed by the pad (42_encoder.md R127, R132). -/
def packTokens : List Token → List Byte
  | [] => []
  | [t] => [mkByte t padTok]
  | t :: u :: rest => mkByte t u :: packTokens rest

/-- The pad that completes the last byte of an odd number of tokens. -/
def padAfter (ts : List Token) : List Token := if ts.length % 2 = 1 then [padTok] else []

/-- The packed bytes hold the tokens, and after them at most a pad. -/
theorem tokensOf_packTokens (ts : List Token) : tokensOf (packTokens ts) = ts ++ padAfter ts := by
  induction ts using packTokens.induct with
  | case1 => rfl
  | case2 t => simp [packTokens, tokensOf, padAfter, hiNibble_mkByte, loNibble_mkByte]
  | case3 t u rest ih =>
    have hparity : padAfter (t :: u :: rest) = padAfter rest := by
      simp only [padAfter, List.length_cons, Nat.add_assoc, Nat.add_mod_right]
    rw [hparity, packTokens, ← List.singleton_append, tokensOf_append, ih]
    simp [tokensOf, hiNibble_mkByte, loNibble_mkByte]

theorem length_packTokens (ts : List Token) : (packTokens ts).length = (ts.length + 1) / 2 := by
  have hlen := congrArg List.length (tokensOf_packTokens ts)
  rw [length_tokensOf, List.length_append, padAfter] at hlen
  split at hlen <;> simp at hlen <;> omega

/-- Token `k` of a byte sequence is in byte `k div 2`, in the high nibble if `k` is even (20_memory.md R35). -/
theorem getElem?_tokensOf (bytes : List Byte) (k : Nat) :
    (tokensOf bytes)[k]? = bytes[k / 2]?.map (fun b => if k % 2 = 0 then hiNibble b else loNibble b) := by
  induction bytes generalizing k with
  | nil => rfl
  | cons b rest ih =>
    match k with
    | 0 => rfl
    | 1 => rfl
    | k + 2 =>
      have hindex : (k + 2) / 2 = k / 2 + 1 := by omega
      have hparity : (k + 2) % 2 = k % 2 := by omega
      rw [hindex, hparity, List.getElem?_cons_succ, ← ih]
      rfl

/-! ## The result as bytes and as tokens -/

theorem outLen_of_resultBytes {s : State} {bytes : List Byte} (h : resultBytes s = bytes.map some) :
    s.outLen = bytes.length := by
  simpa [resultBytes] using congrArg List.length h

theorem read_of_resultBytes {s : State} {bytes : List Byte} (h : resultBytes s = bytes.map some) {j : Nat}
    (hj : j < s.outLen) : Memory.read s.outCells j = bytes[j]? := by
  have hget : (resultBytes s)[j]? = (bytes.map some)[j]? := by rw [h]
  have hlen : j < bytes.length := outLen_of_resultBytes h ▸ hj
  simpa [resultBytes, hj, hlen] using hget

/-- The tokens of the result are those of its bytes. -/
theorem resultToken_of_resultBytes {s : State} {bytes : List Byte} (h : resultBytes s = bytes.map some) {k : Nat}
    (hk : k < 2 * s.outLen) : resultToken s k = (tokensOf bytes)[k]? := by
  rw [resultToken, read_of_resultBytes h (by omega), getElem?_tokensOf]

/-- A run whose input is what another has written is over that result. -/
theorem inputBytes_of_copied {t u : State} {bytes : List Byte} (h : resultBytes t = bytes.map some)
    (hlen : u.inLen = t.outLen) (hcopy : ∀ j, j < t.outLen → Memory.read t.outCells j = some (inByte u j)) :
    inputBytes u = bytes := by
  apply List.map_injective_iff.2 (Option.some_injective Byte)
  rw [← h, inputBytes, resultBytes, hlen, List.map_map]
  exact List.map_congr_left fun j hj => (hcopy j (List.mem_range.1 hj)).symm

/-! ## Encoding, then decoding -/

/-- The characters an encode run keeps. -/
def keptChars (lossy : Bool) : List Byte := if lossy then commandChars else roundTripChars

theorem mem_roundTripChars_of_mem_keptChars {lossy : Bool} {c : Byte} (h : c ∈ keptChars lossy) :
    c ∈ roundTripChars := by
  cases lossy with
  | false => exact h
  | true => exact List.mem_append_left [0x09, 0x0A] h

/-- The token of a character decodes to the character; the characters not kept have none. -/
theorem bind_encTok_decChar (c : Byte) (lossy : Bool) :
    (encTok c lossy).bind (fun t => decChar t false) = if c ∈ keptChars lossy then some c else none := by
  by_cases hc : c ∈ roundTripChars
  · revert lossy c
    decide
  · rw [encTok_of_not_mem_roundTripChars hc, if_neg fun h => hc (mem_roundTripChars_of_mem_keptChars h)]
    rfl

/-- The pad decodes to nothing, so a packed text decodes to what its tokens give (42_encoder.md R133). -/
theorem decodeText_packTokens (ts : List Token) :
    decodeText false (packTokens ts) = ts.filterMap (fun t => decChar t false) := by
  have hpad : (padAfter ts).filterMap (fun t => decChar t false) = [] := by
    rw [padAfter]
    split <;> rfl
  rw [decodeText, tokensOf_packTokens, List.filterMap_append, hpad, List.append_nil]

/-- Decoding with `LOSSY = 0` what was encoded gives the characters kept. -/
theorem decodeText_packTokens_encodeTokens (lossy : Bool) (text : List Byte) :
    decodeText false (packTokens (encodeTokens lossy text)) = text.filter (fun c => c ∈ keptChars lossy) := by
  rw [decodeText_packTokens, encodeTokens, List.filterMap_filterMap, ← List.filterMap_eq_filter]
  congr 1
  funext c
  simp only [bind_encTok_decChar, Option.guard, decide_eq_true_eq]

/-- Only the ten characters of the round trip bear on the tokens (42_encoder.md R133). -/
theorem encodeTokens_filter (lossy : Bool) (text : List Byte) :
    encodeTokens lossy (text.filter (fun c => c ∈ roundTripChars)) = encodeTokens lossy text := by
  rw [encodeTokens, List.filterMap_filter]
  refine List.filterMap_congr fun c _ => ?_
  by_cases hc : c ∈ roundTripChars
  · simp [hc]
  · simp [hc, encTok_of_not_mem_roundTripChars hc]

/-- Lossy encoding gives no flagged token. -/
theorem flagOf_of_mem_encodeTokens_true {text : List Byte} {t : Token} (h : t ∈ encodeTokens true text) :
    flagOf t = 0 := by
  have hall : ∀ c ∈ roundTripChars, ∀ u ∈ encTok c true, flagOf u = 0 := by decide
  obtain ⟨c, -, ht⟩ := List.mem_filterMap.1 h
  by_cases hc : c ∈ roundTripChars
  · exact hall c hc t ht
  · rw [encTok_of_not_mem_roundTripChars hc] at ht
    cases ht

/-- After the tokens of a packed text there is at most one more, the pad, and it is the last. -/
theorem eq_padTok_of_length_le {ts : List Token} {k : Nat} {x : Token} (hk : ts.length ≤ k)
    (hx : (tokensOf (packTokens ts))[k]? = some x) : x = padTok ∧ k + 1 = 2 * (packTokens ts).length := by
  rw [tokensOf_packTokens, List.getElem?_append_right hk, padAfter] at hx
  split at hx
  case isTrue hodd =>
    obtain ⟨hlast, hpad⟩ := List.getElem?_eq_some_iff.1 hx
    rw [List.length_singleton] at hlast
    refine ⟨by simpa using hpad.symm, ?_⟩
    rw [length_packTokens]
    omega
  case isFalse => cases hx

/-- A flagged token of a lossy encoding is the pad in last place (42_encoder.md R133). -/
theorem eq_padTok_of_flagOf {text : List Byte} {k : Nat} {x : Token}
    (hx : (tokensOf (packTokens (encodeTokens true text)))[k]? = some x) (hflag : flagOf x = 1) :
    x = padTok ∧ k + 1 = 2 * (packTokens (encodeTokens true text)).length := by
  rcases Nat.lt_or_ge k (encodeTokens true text).length with hlt | hle
  · rw [tokensOf_packTokens, List.getElem?_append_left hlt] at hx
    have hclear : flagOf x = 0 := flagOf_of_mem_encodeTokens_true (List.mem_of_getElem? hx)
    simp [hclear] at hflag
  · exact eq_padTok_of_length_le hle hx

end Sys2Proof.Proofs
end

section
/-! What a whole run computes (41_decoder.md R108, 42_encoder.md R132, R133, 70_reset_and_hazards.md R168): the output a
state still leads to is the same in every state of a run. -/

namespace Sys2Proof.Proofs

open Sys2Proof.Machine Sys2Proof.Safety Sys2Proof.Laws

/-! ## Induction over a run -/

/-- What holds in a run and is kept by each step below `END` holds at `END`, one step before the run is over. -/
theorem InRun.reaches_end {P : State → Prop}
    (hkeep : ∀ u v, InRun u → u.cur < endOf u → engineStep u = .next v → P u → P v) {s : State} (h : InRun s)
    (hs : P s) : ∃ u t, runSteps (stepsLeft s) s = .next t ∧ engineStep u = .next t ∧ InRun u ∧ u.cur = endOf u ∧
      endOf u = endOf s ∧ P u := by
  induction hn : stepsLeft s generalizing s with
  | zero => exact absurd hn (stepsLeft_pos s).ne'
  | succ n ih =>
    rcases h.within.lt_or_eq with hlt | hend
    · obtain ⟨v, hv, hrun, -, hendv, hleft⟩ := h.step_below_end hlt
      have hengine : engineStep s = .next v := (step_of_schedule_nil h.alone).symm.trans hv
      obtain ⟨u, t, ht, hu, hrunu, hcur, hendu, hPu⟩ := ih hrun (hkeep s v h hlt hengine hs) (by omega)
      exact ⟨u, t, (runSteps_succ_of_step hv n).trans ht, hu, hrunu, hcur, hendu.trans hendv, hPu⟩
    · obtain ⟨t, ht⟩ := exists_engineStep s
      have hone : stepsLeft s = 1 := h.stepsLeft_eq_one_iff.2 hend
      have hzero : n = 0 := by omega
      subst hzero
      exact ⟨s, t, runSteps_one_of_step ((step_of_schedule_nil h.alone).trans ht), ht, h, hend, rfl, hs⟩

/-! ## The output so far, the tokens held and the input left -/

theorem resultBytes_append {s t : State} {v : Byte} (hlen : t.outLen = s.outLen + 1)
    (hcells : t.outCells = Memory.write s.outCells s.outLen v) : resultBytes t = resultBytes s ++ [some v] := by
  rw [resultBytes, resultBytes, hlen, hcells, List.range_succ, List.map_append]
  congr 1
  · refine List.map_congr_left fun j hj => ?_
    rw [read_write, if_neg (List.mem_range.1 hj).ne]
  · simp

theorem resultBytes_kept {s t : State} (hlen : t.outLen = s.outLen) (hcells : t.outCells = s.outCells) :
    resultBytes t = resultBytes s := by
  rw [resultBytes, resultBytes, hlen, hcells]

theorem inputBytes_of_sameSettings {s t : State} (h : SameSettings s t) : inputBytes t = inputBytes s := by
  have hinLen : t.inLen = s.inLen := by
    obtain ⟨-, -, -, hinLen, -⟩ := h
    exact hinLen
  rw [inputBytes, inputBytes, hinLen]
  exact List.map_congr_left fun i _ => inByte_of_sameSettings h i

/-- The token `ACC` holds, if any (10_state.md R11). -/
def heldTokens (s : State) : List Token :=
  match s.half with
  | .awaitingHigh => []
  | .awaitingLow => [hiNibble s.acc]

/-- The output an encode run leads to when `ts` are the tokens still to come. -/
def packedOutput (s : State) (ts : List Token) : List (Option Byte) :=
  resultBytes s ++ (packTokens (heldTokens s ++ ts)).map some

/-- A placement takes the first of the tokens to come. -/
theorem packedOutput_place {s : State} (hacc : AccHalf s) (t : Token) (c : Byte) (ts : List Token) :
    packedOutput (place t c s) ts = packedOutput s (t :: ts) := by
  cases h : s.half with
  | awaitingHigh =>
    obtain ⟨hcells, hlen⟩ := place_outCells_awaitingHigh (t := t) (c := c) h
    have hheld : heldTokens (place t c s) = [t] := by
      rw [place_eq_of_awaitingHigh h, setWidth_shiftLeft_eq_mkByte]
      exact congrArg (fun u => [u]) (hiNibble_mkByte t 0x0)
    rw [packedOutput, packedOutput, resultBytes_kept hlen hcells, hheld, heldTokens, h]
    rfl
  | awaitingLow =>
    obtain ⟨hcells, hlen⟩ := place_outCells_awaitingLow (t := t) (c := c) h
    have hheld : heldTokens (place t c s) = [] := by
      rw [place_eq_of_awaitingLow h rfl]
      rfl
    have hpair : s.acc ||| t.setWidth 8 = mkByte (hiNibble s.acc) t := or_setWidth_eq_mkByte (hacc.2 h) t
    rw [packedOutput, packedOutput, resultBytes_append hlen hcells, hheld, hpair, heldTokens, h]
    simp [packTokens]

theorem packedOutput_placeIfAny {s : State} (hacc : AccHalf s) (t : Option Token) (c : Byte) (ts : List Token) :
    packedOutput (placeIfAny t c s) ts = packedOutput s (t.toList ++ ts) := by
  cases t with
  | none => rfl
  | some t => exact packedOutput_place hacc t c ts

/-- The padding writes the token held with the pad, and nothing else. -/
theorem resultBytes_padLastByte {s : State} (hacc : AccHalf s) : resultBytes (padLastByte s) = packedOutput s [] := by
  cases h : s.half with
  | awaitingHigh =>
    rw [padLastByte_awaitingHigh h, packedOutput, heldTokens, h]
    simp [packTokens]
  | awaitingLow =>
    have hpair : s.acc ||| 0x08 = mkByte (hiNibble s.acc) padTok := or_setWidth_eq_mkByte (hacc.2 h) padTok
    rw [padLastByte_awaitingLow h, packedOutput, heldTokens, h, hpair]
    exact resultBytes_append rfl rfl

/-- Below `END` the first of the characters left is the one at `CUR`. -/
theorem drop_inputBytes {s : State} (hlt : s.cur < s.inLen) :
    (inputBytes s).drop s.cur = inByte s s.cur :: (inputBytes s).drop (s.cur + 1) := by
  rw [List.drop_eq_getElem_cons (by simpa [inputBytes] using hlt)]
  simp [inputBytes]

/-- Below `END` the first of the tokens left is the one fetched. -/
theorem drop_tokensOf {s : State} (haligned : s.cur % 4 = 0) (hlt : s.cur < 8 * s.inLen) :
    (tokensOf (inputBytes s)).drop (s.cur / 4) =
      fetchToken s :: (tokensOf (inputBytes s)).drop (s.cur / 4 + 1) := by
  have hbyte : s.cur / 4 / 2 = s.cur / 8 := by omega
  have hin : s.cur / 8 < s.inLen := by omega
  have hparity : s.cur / 4 % 2 = 0 ↔ s.cur % 8 = 0 := by omega
  have htoken : (tokensOf (inputBytes s))[s.cur / 4]? = some (fetchToken s) := by
    rw [getElem?_tokensOf, hbyte, fetchToken]
    simp [inputBytes, hin, hparity]
  obtain ⟨hindex, hget⟩ := List.getElem?_eq_some_iff.1 htoken
  rw [List.drop_eq_getElem_cons hindex, hget]

/-! ## The output a run leads to -/

theorem filterMap_cons_eq_toList_append {α β : Type} (f : α → Option β) (a : α) (l : List α) :
    (a :: l).filterMap f = (f a).toList ++ l.filterMap f := by
  cases h : f a <;> simp [h]

/-- The output a state within a run leads to. -/
def finalOutput (s : State) : List (Option Byte) :=
  match s.mode with
  | .encode => packedOutput s (encodeTokens s.lossy ((inputBytes s).drop s.cur))
  | .decode =>
    resultBytes s ++
      (((tokensOf (inputBytes s)).drop (s.cur / 4)).filterMap (fun t => decChar t s.lossy)).map some

theorem resultBytes_appendIfAny (ch : Option Byte) (s : State) :
    resultBytes (appendIfAny ch s) = resultBytes s ++ (ch.toList).map some := by
  cases ch with
  | none => simp [appendIfAny]
  | some c => exact resultBytes_append rfl rfl

/-- A state of a run that leads to the output `out`, in a decode run with the packer empty. -/
structure LeadsTo (out : List (Option Byte)) (s : State) : Prop where
  packer : AccHalf s
  unused : s.mode = .decode → s.acc = 0x00 ∧ s.half = .awaitingHigh
  final : finalOutput s = out

/-- A character moves its token from the tokens to come into the packer. -/
theorem finalOutput_char_step {s t : State} (hset : SameSettings s t) (hacc : AccHalf s) (hmode : s.mode = .encode)
    (hlt : s.cur < s.inLen)
    (ht : t = advance 1 (placeIfAny (encTok (inByte s s.cur) s.lossy) (inByte s s.cur) s)) :
    finalOutput t = finalOutput s := by
  have hin : inputBytes t = inputBytes s := inputBytes_of_sameSettings hset
  have hcur : t.cur = s.cur + 1 := by simp [ht]
  have hpacked (ts : List Token) :
      packedOutput t ts = packedOutput s ((encTok (inByte s s.cur) s.lossy).toList ++ ts) :=
    ht ▸ packedOutput_placeIfAny hacc _ _ ts
  have htokens : encodeTokens s.lossy ((inputBytes s).drop s.cur) =
      (encTok (inByte s s.cur) s.lossy).toList ++ encodeTokens s.lossy ((inputBytes s).drop (s.cur + 1)) := by
    rw [drop_inputBytes hlt]
    exact filterMap_cons_eq_toList_append _ _ _
  obtain ⟨htmode, hlossy, -⟩ := hset
  simp only [finalOutput, htmode, hmode, hlossy, hin, hcur, hpacked, htokens]

/-- A token moves its character from the text to come into `OUT`. -/
theorem finalOutput_token_step {s t : State} (hset : SameSettings s t) (hmode : s.mode = .decode)
    (haligned : s.cur % 4 = 0) (hlt : s.cur < 8 * s.inLen)
    (ht : t = advance 4 (appendIfAny (decChar (fetchToken s) s.lossy) s)) : finalOutput t = finalOutput s := by
  have hin : inputBytes t = inputBytes s := inputBytes_of_sameSettings hset
  have hcur : t.cur / 4 = s.cur / 4 + 1 := by simp [ht]
  have hresult : resultBytes t = resultBytes s ++ (decChar (fetchToken s) s.lossy).toList.map some :=
    ht ▸ resultBytes_appendIfAny _ s
  obtain ⟨htmode, hlossy, -⟩ := hset
  simp only [finalOutput, htmode, hmode, hlossy, hin, hcur, hresult, drop_tokensOf haligned hlt,
    filterMap_cons_eq_toList_append, List.map_append, List.append_assoc]

/-- A step below `END` does not change the output the run leads to. -/
theorem LeadsTo.step {out : List (Option Byte)} (s t : State) (hrun : InRun s) (hlt : s.cur < endOf s)
    (h : engineStep s = .next t) (hs : LeadsTo out s) : LeadsTo out t := by
  have hset : SameSettings s t := engineStep_sameSettings h
  have htmode : t.mode = s.mode := hset.1
  cases hmode : s.mode with
  | encode =>
    have ht := Host.Outcome.next.inj (h.symm.trans (engineStep_encode hrun.busy hlt hmode))
    have hbelow : s.cur < s.inLen := by simpa only [endOf, hmode] using hlt
    refine ⟨accHalf_engineStep hs.packer h, fun hdec => ?_,
      (finalOutput_char_step hset hs.packer hmode hbelow ht).trans hs.final⟩
    simp [htmode, hmode] at hdec
  | decode =>
    have ht := Host.Outcome.next.inj (h.symm.trans (engineStep_decode hrun.busy hlt hmode))
    have hbelow : s.cur < 8 * s.inLen := by simpa only [endOf, hmode] using hlt
    have hempty : t.acc = 0x00 ∧ t.half = .awaitingHigh := by simpa [ht] using hs.unused hmode
    exact ⟨accHalf_of_acc_eq_zero hempty.1, fun _ => hempty,
      (finalOutput_token_step hset hmode (hrun.aligned hmode) hbelow ht).trans hs.final⟩

/-! ## The whole run -/

/-- What a run over an input writes (41_decoder.md R108, 42_encoder.md R132). -/
def runOutput (dir : Direction) (lossy : Bool) (input : List Byte) : List Byte :=
  match dir with
  | .encode => packTokens (encodeTokens lossy input)
  | .decode => decodeText lossy input

/-- The state in which a run ends, with the output `out`. -/
structure EndOfRun (out : List Byte) (stop : Nat) (t : State) : Prop where
  idle : t.busy = false
  done : t.done = true
  cur : t.cur = stop
  acc : t.acc = 0x00
  half : t.half = .awaitingHigh
  result : resultBytes t = out.map some

theorem inRun_of_atRunStart {dir : Direction} {s : State} (h : AtRunStart dir s) : InRun s := by
  obtain ⟨hb, -, hcur, -, -, -, hsched⟩ := h
  exact ⟨hb, hsched, by omega, fun _ => by rw [hcur]⟩

theorem leadsTo_of_atRunStart {dir : Direction} {s : State} (h : AtRunStart dir s) :
    LeadsTo ((runOutput dir s.lossy (inputBytes s)).map some) s := by
  obtain ⟨-, hmode, hcur, hlen, hacc, hhalf, -⟩ := h
  have hresult : resultBytes s = [] := by rw [resultBytes, hlen]; rfl
  have hheld : heldTokens s = [] := by rw [heldTokens, hhalf]
  refine ⟨accHalf_of_acc_eq_zero hacc, fun _ => ⟨hacc, hhalf⟩, ?_⟩
  rw [finalOutput, hmode, hcur]
  cases dir with
  | encode => simp [packedOutput, hresult, hheld, runOutput]
  | decode => simp [hresult, runOutput, decodeText]

/-- At `END` nothing is left of the input: the step writes what is held and ends the run. -/
theorem LeadsTo.end_step {out : List Byte} {s t : State} (hs : LeadsTo (out.map some) s) (hb : s.busy = true)
    (hend : s.cur = endOf s) (h : engineStep s = .next t) : EndOfRun out (endOf s) t := by
  have hfinal := hs.final
  rw [engineStep_of_end_le hb hend.ge] at h
  cases hmode : s.mode with
  | encode =>
    obtain ⟨hacc, hhalf⟩ := padLastByte_empty hs.packer
    rw [hmode] at h
    cases h
    have hdrop : (inputBytes s).drop s.cur = [] := by simp [inputBytes, hend, endOf, hmode]
    refine ⟨rfl, rfl, (padLastByte_cur s).trans hend, hacc, hhalf, ?_⟩
    rw [← hfinal, finalOutput, hmode, hdrop]
    exact resultBytes_padLastByte hs.packer
  | decode =>
    obtain ⟨hacc, hhalf⟩ := hs.unused hmode
    rw [hmode] at h
    cases h
    have hdrop : (tokensOf (inputBytes s)).drop (s.cur / 4) = [] := by
      refine List.drop_eq_nil_of_le ?_
      simp only [length_tokensOf, inputBytes, List.length_map, List.length_range, hend, endOf, hmode]
      omega
    refine ⟨rfl, rfl, hend, hacc, hhalf, ?_⟩
    rw [← hfinal, finalOutput, hmode, hdrop, List.filterMap_nil, List.map_nil, List.append_nil]
    rfl

/-- A run from its start ends after the steps left, with the output of its direction over its input. -/
theorem exists_endOfRun {dir : Direction} {s : State} (h : AtRunStart dir s) :
    ∃ t, runSteps (stepsLeft s) s = .next t ∧ EndOfRun (runOutput dir s.lossy (inputBytes s)) (endOf s) t := by
  obtain ⟨u, t, ht, hu, hrun, hcur, hend, hleads⟩ := 
    (inRun_of_atRunStart h).reaches_end LeadsTo.step (leadsTo_of_atRunStart h)
  exact ⟨t, ht, hend ▸ hleads.end_step hrun.busy hcur hu⟩

/-- A decode run, with its number of steps. -/
theorem decode_run {s : State} (h : AtRunStart .decode s) :
    ∃ t, runSteps (2 * s.inLen + 1) s = .next t ∧ EndOfRun (decodeText s.lossy (inputBytes s)) (8 * s.inLen) t := by
  obtain ⟨t, ht, hend⟩ := exists_endOfRun h
  obtain ⟨-, hmode, hcur, -⟩ := h
  have hsteps : stepsLeft s = 2 * s.inLen + 1 := by simp [stepsLeft_at_start hcur, hmode]
  have hstop : endOf s = 8 * s.inLen := by rw [endOf, hmode]
  exact ⟨t, hsteps ▸ ht, hstop ▸ hend⟩

/-- An encode run, with its number of steps. -/
theorem encode_run {s : State} (h : AtRunStart .encode s) :
    ∃ t, runSteps (s.inLen + 1) s = .next t ∧
      EndOfRun (packTokens (encodeTokens s.lossy (inputBytes s))) s.inLen t := by
  obtain ⟨t, ht, hend⟩ := exists_endOfRun h
  obtain ⟨-, hmode, hcur, -⟩ := h
  have hsteps : stepsLeft s = s.inLen + 1 := by simp [stepsLeft_at_start hcur, hmode]
  have hstop : endOf s = s.inLen := by rw [endOf, hmode]
  exact ⟨t, hsteps ▸ ht, hstop ▸ hend⟩

/-! ## The statements about runs -/

/-- Settles O49: the output of a decode run. -/
theorem decodeRunOutput : Obligations.DecodeRunOutput := by
  intro s h
  obtain ⟨t, ht, hend⟩ := decode_run h
  exact ⟨t, ht, hend.idle, hend.done, hend.cur, hend.acc, hend.half, hend.result⟩

/-- Settles O51: the output of an encode run, its tokens read from the packed bytes. -/
theorem encodeRunOutput : Obligations.EncodeRunOutput := by
  intro s h
  obtain ⟨t, ht, hend⟩ := encode_run h
  refine ⟨t, ht, hend.idle, hend.done, hend.cur, hend.acc, hend.half, fun T hT => ?_⟩
  have hresult : resultBytes t = (packTokens T).map some := hT ▸ hend.result
  have hlen : t.outLen = (T.length + 1) / 2 := (outLen_of_resultBytes hresult).trans (length_packTokens T)
  have htoken {k : Nat} (hk : k < 2 * t.outLen) : resultToken t k = (T ++ padAfter T)[k]? :=
    tokensOf_packTokens T ▸ resultToken_of_resultBytes hresult hk
  refine ⟨hlen, fun k hk => ?_, fun hodd => ?_⟩
  · rw [htoken (by omega), List.getElem?_append_left hk, List.getElem?_eq_getElem hk]
  · rw [htoken (by omega), List.getElem?_append_right le_rfl, Nat.sub_self, padAfter, if_pos hodd]
    rfl

/-- A decode run with `LOSSY = 0` over what an encode run wrote gives the characters the encode run kept. -/
theorem decode_run_of_encoded {lossy : Bool} {text : List Byte} {t u : State}
    (hresult : resultBytes t = (packTokens (encodeTokens lossy text)).map some) (h : AtRunStart .decode u)
    (hlossy : u.lossy = false) (hlen : u.inLen = t.outLen)
    (hcopy : ∀ j, j < t.outLen → Memory.read t.outCells j = some (inByte u j)) :
    ∃ v, runSteps (2 * u.inLen + 1) u = .next v ∧ v.done = true ∧
      resultBytes v = (text.filter (fun c => c ∈ keptChars lossy)).map some := by
  obtain ⟨v, hv, hend⟩ := decode_run h
  refine ⟨v, hv, hend.done, ?_⟩
  rw [hend.result, hlossy, inputBytes_of_copied hresult hlen hcopy, decodeText_packTokens_encodeTokens]

/-- Settles O52: with `LOSSY = 0` all ten characters are kept. -/
theorem nonLossyRoundTrip : Obligations.NonLossyRoundTrip := by
  intro s h hlossy hchars
  obtain ⟨t, ht, hend⟩ := encode_run h
  refine ⟨t, ht, fun u hu hulossy hlen hcopy => ?_⟩
  obtain ⟨v, hv, hdone, hresult⟩ := decode_run_of_encoded hend.result hu hulossy hlen hcopy
  have hall : (inputBytes s).filter (fun c => c ∈ keptChars s.lossy) = inputBytes s :=
    List.filter_eq_self.2 fun c hc => decide_eq_true (hlossy.symm ▸ hchars c hc)
  exact ⟨v, hv, hdone, hall ▸ hresult⟩

/-- Settles O53: the tokens of the result by the packing, the text by what lossy encoding keeps. -/
theorem lossyEncodingStripsFormatting : Obligations.LossyEncodingStripsFormatting := by
  intro s h hlossy _
  obtain ⟨t, ht, hend⟩ := encode_run h
  have hresult := hend.result
  rw [hlossy] at hresult
  refine ⟨t, ht, fun k x hk hx hflag => ?_, fun u hu hulossy hlen hcopy => ?_⟩
  · rw [resultToken_of_resultBytes hresult hk] at hx
    rw [outLen_of_resultBytes hresult]
    exact eq_padTok_of_flagOf hx hflag
  · obtain ⟨v, hv, -, hkept⟩ := decode_run_of_encoded hresult hu hulossy hlen hcopy
    exact ⟨v, hv, hkept⟩

/-- Settles O54: both inputs give the tokens of what is left when CRs and foreign bytes are removed. -/
theorem ignoredCharsAreTransparent : Obligations.IgnoredCharsAreTransparent := by
  intro s t hs ht hlossy hfilter
  obtain ⟨s', hs', hends⟩ := encode_run hs
  obtain ⟨t', ht', hendt⟩ := encode_run ht
  refine ⟨s', t', hs', ht', ?_⟩
  rw [hends.result, hendt.result, ← encodeTokens_filter, hfilter, encodeTokens_filter, hlossy]

/-- `START` leads to the start of a run over the same input in the direction of `MODE`. -/
theorem atRunStart_beginRun {s : State} (hsched : s.schedule = []) : AtRunStart s.mode (beginRun s) :=
  ⟨rfl, rfl, rfl, rfl, rfl, rfl, hsched⟩

/-- A run that is started ends with the output that `MODE`, `LOSSY` and the input give. -/
theorem start_then_run {s : State} (hidle : s.busy = false) (hsched : s.schedule = [])
    (hfits : Config.inFits s.inCap s.inLen = true) (g : BitVec 7) :
    ∃ s₁ s₂, exec (.start g) s = .next s₁ ∧ runSteps (stepsLeft s₁) s₁ = .next s₂ ∧ s₂.done = true ∧
      resultBytes s₂ = (runOutput s.mode s.lossy (inputBytes s)).map some := by
  obtain ⟨s₂, hrun, hend⟩ := exists_endOfRun (atRunStart_beginRun hsched)
  exact ⟨_, s₂, exec_start_of_fits hidle hfits g, hrun, hend.done, hend.result⟩

/-- Settles O56: the output of a run names nothing but `MODE`, `LOSSY` and the input. -/
theorem resultDependsOnlyOnTheInput : Obligations.ResultDependsOnlyOnTheInput := by
  intro g h s t hsidle htidle hssched htsched hsfits htfits hmode hlossy hin
  obtain ⟨s₁, s₂, hs₁, hs₂, hsdone, hsresult⟩ := start_then_run hsidle hssched hsfits g
  obtain ⟨t₁, t₂, ht₁, ht₂, htdone, htresult⟩ := start_then_run htidle htsched htfits h
  exact ⟨s₁, t₁, s₂, t₂, hs₁, ht₁, hs₂, ht₂, hsdone, htdone, by rw [hsresult, htresult, hmode, hlossy, hin]⟩

end Sys2Proof.Proofs
end
